-- ==== Sys2Proof/Word.lean ====
section
/-! DEFINITION. The data unit of the codec (R8), its two reserved values (R9) and the byte classes
(R16, R72). -/

namespace Sys2Proof

/-- The data unit everywhere: 8 bits (R8). -/
abbrev Byte := BitVec 8

/-- The start and escape byte, hardwired (R9). -/
def DLE : Byte := 0x10#8

/-- The terminator byte, hardwired (R9). -/
def ETX : Byte := 0x03#8

/-- The three classes that partition the 256 byte values (R72). -/
inductive ByteClass where
  | dle
  | etx
  | other
  deriving DecidableEq, Repr

/-- The class of a byte, tested in the order DLE, ETX, OTHER; all 8 bits are compared (R11, R16, R72). -/
def classOf (b : Byte) : ByteClass :=
  if b = DLE then .dle else if b = ETX then .etx else .other

/-- `isOther` of R16: neither DLE nor ETX. -/
def isOther (b : Byte) : Bool :=
  decide (b ≠ DLE) && decide (b ≠ ETX)

end Sys2Proof
end

