-- ==== Sys2Proof/Config.lean ====
section
/-! DEFINITION. What the spec leaves OPEN (R10): the two build parameters and the two error types; and
the free values, which the environment gives (R20). -/

namespace Sys2Proof

/-- A source error value, opaque to the codec (R10, R86, I3). The codec never inspects one; the
number only tells two values apart (DESIGN CHOICE, safe: notes/assumptions/2.md). -/
structure SrcErr where
  tag : Nat
  deriving DecidableEq, Repr

/-- A sink error value, opaque to the codec (R10, R87, I4); as `SrcErr`. -/
structure SnkErr where
  tag : Nat
  deriving DecidableEq, Repr

/-- The two parameters the spec leaves OPEN (R3, R10). A model "fixes each or takes it as an
argument": here they are an argument, carried by `State` and changed by nothing
(notes/assumptions/1.md). -/
structure Params where
  /-- `MAX_DATA`; `none` is `INF`, no bound (R10, R114, D8). -/
  maxData : Option Nat
  /-- `REJECT_PREFIX_LEN`, one of 0, 1, 2 (R10, R142, D10). -/
  rejectLen : Fin 3
  deriving DecidableEq, Repr

/-- The values this hardware takes (R10): `MAX_DATA = INF` (the default) and
`REJECT_PREFIX_LEN = 0`. -/
def Params.thisHardware : Params := { maxData := none, rejectLen := 0 }

/-- A free value: the item at place `pos` of the endless sequence number `stream`. It has no body, so
nothing can be proved of it, and a sequence it gives may be any (R20, R51, R52: an oracle's answers are
free inputs; notes/assumptions/19.md). -/
opaque freeItem (α : Type) [Inhabited α] (stream pos : Nat) : α

end Sys2Proof
end

