-- ==== Sys2Proof/Syntax.lean ====
section
/-! DEFINITION. The packet value, the answers of the streams, and one constructor for each row of
spec/opcode_table.json (R88). -/

namespace Sys2Proof

/-- A packet: the pair `(id, data)` (R28). `subCode` is a function of it (R29), so a caller's
differing `subCode` cannot be written down and cannot reach the encoder (R148). -/
structure Packet where
  id   : Byte
  data : List Byte
  deriving DecidableEq, Repr

/-- One answer of the source to one `SrcRead()` (R51, R86). An answer with bytes and an error
together, or with neither, does not exist on the channel (R86) and cannot be written here. -/
inductive SrcAnswer where
  | byte (b : Byte)
  | eos
  | err (e : SrcErr)
  deriving DecidableEq, Repr, Inhabited

/-- One answer of the sink to one `SnkWrite(b)` (R52, R87). -/
inductive SnkAnswer where
  | ack
  | err (e : SnkErr)
  deriving DecidableEq, Repr

/-- The transitions and wire tokens of the codec: one constructor per row of
spec/opcode_table.json. A row whose byte is fixed by the table carries no operand. -/
inductive Instr where
  /-- `DECODE` (R101). -/
  | decode
  /-- `SCAN.DLE` (R102). -/
  | scanDle
  /-- `SCAN.ETX` (R103). -/
  | scanEtx
  /-- `SCAN.SKIP` (R104), `b` the answered byte. -/
  | scanSkip (b : Byte)
  /-- `SCAN.START` (R105), `b` the answered byte. -/
  | scanStart (b : Byte)
  /-- `BODY.DLE` (R106). -/
  | bodyDle
  /-- `BODY.ESC` (R107). -/
  | bodyEsc
  /-- `BODY.TERM` (R108). -/
  | bodyTerm
  /-- `BODY.ETXLIT` (R109). -/
  | bodyEtxlit
  /-- `BODY.DROP` (R110), `b` the answered byte. -/
  | bodyDrop (b : Byte)
  /-- `BODY.LIT` (R111), `b` the answered byte. -/
  | bodyLit (b : Byte)
  /-- `SRC.EOS` (R112). -/
  | srcEos
  /-- `SRC.ERR` (R113), `e` the source's error value. -/
  | srcErr (e : SrcErr)
  /-- `ENCODE` (R141), `p` the packet operand. -/
  | encode (p : Packet)
  /-- `ENCODE.REJECT` (R142), `p` the packet operand. -/
  | encodeReject (p : Packet)
  /-- `SNK.ACK` (R146). -/
  | snkAck
  /-- `SNK.ERR` (R147), `e` the sink's error value. -/
  | snkErr (e : SnkErr)
  /-- `ENC_TOKEN.START` (R143), `id` the packet's identifier. -/
  | encTokenStart (id : Byte)
  /-- `ENC_TOKEN.LIT` (R144), `d` the data byte. -/
  | encTokenLit (d : Byte)
  /-- `ENC_TOKEN.ESC` (R144). -/
  | encTokenEsc
  /-- `ENC_TOKEN.TERM` (R145). -/
  | encTokenTerm
  deriving DecidableEq, Repr

/-- What selects a row beside the event: the unit, its phase and its flag (R88); for the wire-token
rows, whether the token stands at `W[0]` or behind the start pair (R143 to R145). -/
inductive Ctx where
  | decIdle
  | scan (prevDLE : Bool)
  | body (dleOdd : Bool)
  | encIdle
  | emit
  | reject
  | tokenStart
  | tokenBody
  deriving DecidableEq, Repr

/-- What a unit takes in one step (R83, R86, R87, R100, R140): a command, a source answer, a sink
answer; `wire` is the rest of the byte sequence `W` from which a wire token is read. -/
inductive Event where
  | cmdDecode
  | cmdEncode (p : Packet)
  | src (a : SrcAnswer)
  | snk (a : SnkAnswer)
  | wire (bs : List Byte)
  deriving DecidableEq, Repr

end Sys2Proof
end

