-- ==== Sys2Proof/WellFormed.lean ====
section
/-! DEFINITION. Which operands a row admits (the `excludes` and `condition` columns of the opcode
table). -/

namespace Sys2Proof

/-- `isOther(p.id)`: the packet can be encoded (R28). -/
def Packet.encodable (p : Packet) : Bool := isOther p.id

/-- An operand is one the row's `match`, `mask`, `excludes` and `condition` columns admit: an OTHER
byte for the rows of class OTHER (R104, R105, R110, R111) and for a start pair's `id` (R143), an
encodable packet for `ENCODE` (R141), a reserved `id` for `ENCODE.REJECT` (R142), a byte that is not
DLE for a literal (R144). -/
def Instr.wf : Instr → Bool
  | .decode => true
  | .scanDle => true
  | .scanEtx => true
  | .scanSkip b => isOther b
  | .scanStart b => isOther b
  | .bodyDle => true
  | .bodyEsc => true
  | .bodyTerm => true
  | .bodyEtxlit => true
  | .bodyDrop b => isOther b
  | .bodyLit b => isOther b
  | .srcEos => true
  | .srcErr _ => true
  | .encode p => p.encodable
  | .encodeReject p => !p.encodable
  | .snkAck => true
  | .snkErr _ => true
  | .encTokenStart id => isOther id
  | .encTokenLit d => decide (d ≠ DLE)
  | .encTokenEsc => true
  | .encTokenTerm => true

end Sys2Proof
end

