-- ==== Sys2Proof/Decode.lean ====
section
/-! DEFINITION. The decoder of transitions (R88): answer kind, then byte class, then register
condition; the wire tokens (R143 to R145); and the encoder: the bytes of each row that has any. -/

namespace Sys2Proof

/-- Why a context and an event select no row. -/
inductive NoRow where
  /-- The unit in this phase takes no such event: no transfer of that kind completes (R88). -/
  | notItsEvent
  /-- The wire ends inside the token. -/
  | truncatedToken
  /-- The bytes are no wire token at this place of a frame (R74). -/
  | noSuchToken
  deriving DecidableEq, Repr

/-- What the decoder answers: a row of the opcode table, or why there is none. -/
inductive Decoded where
  | row (i : Instr)
  | rejected (why : NoRow)
  deriving DecidableEq, Repr

/-- The row, if there is one. -/
def Decoded.instr? : Decoded → Option Instr
  | .row i => some i
  | .rejected _ => none

/-- The row for a byte read in `SCAN` (R102 to R105). -/
def scanRow (prevDLE : Bool) (b : Byte) : Instr :=
  match classOf b, prevDLE with
  | .dle, _ => .scanDle
  | .etx, _ => .scanEtx
  | .other, false => .scanSkip b
  | .other, true => .scanStart b

/-- The row for a byte read in `BODY` (R106 to R111). -/
def bodyRow (dleOdd : Bool) (b : Byte) : Instr :=
  match classOf b, dleOdd with
  | .dle, false => .bodyDle
  | .dle, true => .bodyEsc
  | .etx, true => .bodyTerm
  | .etx, false => .bodyEtxlit
  | .other, true => .bodyDrop b
  | .other, false => .bodyLit b

/-- The row for a source answer; `byteRow` is the phase's row for a byte. The kind of the answer is
tested first (R88). -/
def srcRow (byteRow : Byte → Instr) : SrcAnswer → Instr
  | .eos => .srcEos
  | .err e => .srcErr e
  | .byte b => byteRow b

/-- The row for an `ENCODE(p)` command: the `id` check (R141, R142). -/
def encodeRow (p : Packet) : Instr :=
  if p.encodable then .encode p else .encodeReject p

/-- The row for a sink answer (R146, R147). -/
def snkRow : SnkAnswer → Instr
  | .ack => .snkAck
  | .err e => .snkErr e

/-- The wire token at `W[0]`: the start pair (R143). -/
def startToken : List Byte → Decoded
  | b :: c :: _ => if b = DLE ∧ isOther c then .row (.encTokenStart c) else .rejected .noSuchToken
  | _ => .rejected .truncatedToken

/-- The wire token behind the start pair: a literal, an escape pair or the terminator pair
(R144, R145). -/
def bodyToken : List Byte → Decoded
  | [] => .rejected .truncatedToken
  | b :: r =>
    if b = DLE then
      match r with
      | [] => .rejected .truncatedToken
      | c :: _ =>
        if c = DLE then .row .encTokenEsc
        else if c = ETX then .row .encTokenTerm
        else .rejected .noSuchToken
    else .row (.encTokenLit b)

/-- The decoder: total on every context and event (R88). -/
def decodeRow (c : Ctx) (e : Event) : Decoded :=
  match c, e with
  | .decIdle, .cmdDecode => .row .decode
  | .scan prevDLE, .src a => .row (srcRow (scanRow prevDLE) a)
  | .body dleOdd, .src a => .row (srcRow (bodyRow dleOdd) a)
  | .encIdle, .cmdEncode p => .row (encodeRow p)
  | .emit, .snk a => .row (snkRow a)
  | .reject, .snk a => .row (snkRow a)
  | .tokenStart, .wire bs => startToken bs
  | .tokenBody, .wire bs => bodyToken bs
  | _, _ => .rejected .notItsEvent

/-- The bytes of a row, first byte first (the `encoding` column of the opcode table). Commands, sink
answers, `Eos` and `Err` have no binary encoding (R88, R89). -/
def encode : Instr → List Byte
  | .decode => []
  | .scanDle => [DLE]
  | .scanEtx => [ETX]
  | .scanSkip b => [b]
  | .scanStart b => [b]
  | .bodyDle => [DLE]
  | .bodyEsc => [DLE]
  | .bodyTerm => [ETX]
  | .bodyEtxlit => [ETX]
  | .bodyDrop b => [b]
  | .bodyLit b => [b]
  | .srcEos => []
  | .srcErr _ => []
  | .encode _ => []
  | .encodeReject _ => []
  | .snkAck => []
  | .snkErr _ => []
  | .encTokenStart id => [DLE, id]
  | .encTokenLit d => [d]
  | .encTokenEsc => [DLE, DLE]
  | .encTokenTerm => [DLE, ETX]

/-- The event a row is selected by (the `answer` column of the opcode table); a byte row's byte and a
token row's bytes are those of `encode`. -/
def eventOf : Instr → Event
  | .decode => .cmdDecode
  | .scanDle => .src (.byte DLE)
  | .scanEtx => .src (.byte ETX)
  | .scanSkip b => .src (.byte b)
  | .scanStart b => .src (.byte b)
  | .bodyDle => .src (.byte DLE)
  | .bodyEsc => .src (.byte DLE)
  | .bodyTerm => .src (.byte ETX)
  | .bodyEtxlit => .src (.byte ETX)
  | .bodyDrop b => .src (.byte b)
  | .bodyLit b => .src (.byte b)
  | .srcEos => .src .eos
  | .srcErr e => .src (.err e)
  | .encode p => .cmdEncode p
  | .encodeReject p => .cmdEncode p
  | .snkAck => .snk .ack
  | .snkErr e => .snk (.err e)
  | .encTokenStart id => .wire [DLE, id]
  | .encTokenLit d => .wire [d]
  | .encTokenEsc => .wire [DLE, DLE]
  | .encTokenTerm => .wire [DLE, ETX]

/-- The `unit`, `phase` and `condition` columns of the opcode table: the contexts in which a row can
be selected. -/
def admits : Ctx → Instr → Bool
  | c, .decode => decide (c = .decIdle)
  | c, .scanDle => decide (c = .scan false ∨ c = .scan true)
  | c, .scanEtx => decide (c = .scan false ∨ c = .scan true)
  | c, .scanSkip _ => decide (c = .scan false)
  | c, .scanStart _ => decide (c = .scan true)
  | c, .bodyDle => decide (c = .body false)
  | c, .bodyEsc => decide (c = .body true)
  | c, .bodyTerm => decide (c = .body true)
  | c, .bodyEtxlit => decide (c = .body false)
  | c, .bodyDrop _ => decide (c = .body true)
  | c, .bodyLit _ => decide (c = .body false)
  | c, .srcEos => decide (c = .scan false ∨ c = .scan true ∨ c = .body false ∨ c = .body true)
  | c, .srcErr _ => decide (c = .scan false ∨ c = .scan true ∨ c = .body false ∨ c = .body true)
  | c, .encode _ => decide (c = .encIdle)
  | c, .encodeReject _ => decide (c = .encIdle)
  | c, .snkAck => decide (c = .emit ∨ c = .reject)
  | c, .snkErr _ => decide (c = .emit ∨ c = .reject)
  | c, .encTokenStart _ => decide (c = .tokenStart)
  | c, .encTokenLit _ => decide (c = .tokenBody)
  | c, .encTokenEsc => decide (c = .tokenBody)
  | c, .encTokenTerm => decide (c = .tokenBody)

/-- The row read from bytes that stand alone, with no unit to give their context: one byte is an
answer to a DEC that has just accepted `DECODE` (`SCAN`, `prevDLE = 0`); two bytes are a wire token,
the start pair where the second byte is OTHER, else a token behind it. One byte value belongs to
several rows, which only the unit's phase and flag tell apart (R88): notes/assumptions/3.md. -/
def decodeBytes : List Byte → Option Instr
  | [b] => (decodeRow (.scan false) (.src (.byte b))).instr?
  | [b, c] =>
    if isOther c then (decodeRow .tokenStart (.wire [b, c])).instr?
    else if b = DLE then (decodeRow .tokenBody (.wire [b, c])).instr?
    else none
  | _ => none

/-- The bytes of a table word of `nbits` bits, bit 0 the least significant bit of the first byte. -/
def tableBytes (nbits w : Nat) : List Byte :=
  if nbits = 8 then [BitVec.ofNat 8 w]
  else if nbits = 16 then [BitVec.ofNat 8 w, BitVec.ofNat 8 (w / 256)]
  else []

/-- The row the decoder reads from a table word; none for a row without a binary encoding (R89). -/
def decodeTableWord (nbits w : Nat) : Option Instr := decodeBytes (tableBytes nbits w)

end Sys2Proof
end

