-- ==== Sys2Proof/Machine/State.lean ====
section
/-! DEFINITION. The state: the registers of DEC (R22) and ENC (R31), the channels of the two units
(R83 to R87), the streams and the caller that drive them (R20, R51, R52, R89), and the build
parameters (R10). The codec has no register file, program counter, control register or memory
(R35 to R38, R50). -/

namespace Sys2Proof.Machine

/-- `DEC.phase` (R23). -/
inductive DecPhase where
  | idle
  | scan
  | body
  deriving DecidableEq, Repr

/-- The five registers of DEC (R22). -/
structure Dec where
  /-- `DEC.phase` (R23). -/
  phase   : DecPhase
  /-- `DEC.prevDLE`, 1 bit (R24). -/
  prevDLE : Bool
  /-- `DEC.dleOdd`, 1 bit (R25). -/
  dleOdd  : Bool
  /-- `DEC.id`, 8 bits; `none` is the spec's own 'holds no value' (R26, D16). -/
  id      : Option Byte
  /-- `DEC.data`, the accumulator, first stored byte first (R27, R53). -/
  data    : List Byte
  deriving DecidableEq, Repr

/-- `ENC.phase` (R32). -/
inductive EncPhase where
  | idle
  | emit
  | reject
  deriving DecidableEq, Repr

/-- The three registers of ENC (R31). -/
structure Enc where
  /-- `ENC.phase` (R32). -/
  phase : EncPhase
  /-- `ENC.pkt`, the latched operand; `none` is 'holds no value' (R33, D16). -/
  pkt   : Option Packet
  /-- `ENC.k`, the index of the byte on offer; `none` is 'holds no value' (R34, D16). -/
  k     : Option Nat
  deriving DecidableEq, Repr

/-- DEC's registers after reset and after every result (R40). -/
def Dec.idle : Dec :=
  { phase := .idle, prevDLE := false, dleOdd := false, id := none, data := [] }

/-- ENC's registers after reset and after every result (R40). -/
def Enc.idle : Enc := { phase := .idle, pkt := none, k := none }

/-- A result on `DEC.res` (R84, R171). -/
inductive DecResult where
  /-- `Ok(p)`. -/
  | ok (p : Packet)
  /-- `Fail(STREAM_EOS)`. -/
  | eos
  /-- `Fail(STREAM_SRC_ERR, e)`. -/
  | srcErr (e : SrcErr)
  /-- `Fail(OVERFLOW)`. -/
  | overflow
  deriving DecidableEq, Repr

/-- A result on `ENC.res` (R84, R171). -/
inductive EncResult where
  /-- `Ok`. -/
  | ok
  /-- `Fail(INVALID_PACKET_ID, id)`. -/
  | invalidId (id : Byte)
  /-- `Fail(STREAM_SNK_ERR, e)`. -/
  | snkErr (e : SnkErr)
  deriving DecidableEq, Repr

/-- What follows the listed items of a sequence. -/
inductive Tail (α : Type) where
  /-- Nothing: no further item ever comes. -/
  | stops
  /-- `a`, then those of `l`, and again from `a`, without end. -/
  | repeats (a : α) (l : List α)
  /-- Endless and arbitrary: the items of sequence `stream` from place `pos` on
  (notes/assumptions/19.md). -/
  | endless (stream pos : Nat)
  deriving DecidableEq, Repr

/-- A finite or infinite sequence, consumed front to back: what an agent or an oracle will do. -/
structure Feed (α : Type) where
  listed : List α
  after  : Tail α
  deriving DecidableEq, Repr

/-- The source of DEC: an oracle, 'a finite or infinite sequence of answers consumed front to back'
(R51). Where its answers stop it never answers again (R119). -/
abbrev Source := Feed SrcAnswer

/-- One answer of the sink, and for a failing write whether the offered byte is in the sink all the
same: the spec admits both (R60), and the oracle says which. ENC sees only the answer. -/
inductive SnkReply where
  | ack
  | err (e : SnkErr) (landed : Bool)
  deriving DecidableEq, Repr, Inhabited

/-- The sink of ENC: an oracle, which never answers again where its replies stop (R153), and the bytes
it has taken in the order written (R52). -/
structure Sink where
  replies : Feed SnkReply
  taken   : List Byte
  deriving DecidableEq, Repr

/-- DEC's channels: `DEC.cmd` (whether a `DECODE` waits on it, R83), `DEC.src` (R85) and the results
the caller has taken from `DEC.res`, oldest first (R84). -/
structure DecCh where
  cmd : Bool
  src : Source
  res : List DecResult
  deriving DecidableEq, Repr

/-- ENC's channels: `ENC.cmd` (the `ENCODE(p)` that waits on it, R83), `ENC.snk` (R85) and the results
the caller has taken from `ENC.res`, oldest first (R84). -/
structure EncCh where
  cmd : Option Packet
  snk : Sink
  res : List EncResult
  deriving DecidableEq, Repr

/-- One action of the caller (R89); the last two are another user's (R65, R205). -/
inductive Act where
  /-- `SOURCE`: bind a source to DEC. -/
  | source (q : Source)
  /-- `SINK`: bind a sink to ENC. -/
  | sink (q : Sink)
  /-- `DECODE`. -/
  | decode
  /-- `ENCODE`. -/
  | encode (p : Packet)
  /-- `LOOP`: the bytes ENC's sink takes from now on are appended to DEC's source; `after` is what that
  source does once it has given them all (notes/assumptions/12.md). -/
  | loop (after : Tail SrcAnswer)
  /-- `RESET` of the units it reaches (R200); `readLost` and `writeLanded` say what became of a read
  and a write outstanding at it: the spec admits both (R201). -/
  | reset (dec enc : Bool) (readLost writeLanded : Bool)
  /-- Another reader takes one answer from DEC's source. -/
  | otherReader
  /-- Another writer puts one byte into ENC's sink. -/
  | otherWriter (b : Byte)
  deriving DecidableEq, Repr, Inhabited

/-- The two callers: each unit has one (R184). -/
inductive Side where
  | dec
  | enc
  deriving DecidableEq, Repr, Inhabited

/-- The actions each caller has still to take, in program order (R89). -/
structure Prog where
  dec : Feed Act
  enc : Feed Act
  deriving DecidableEq, Repr

/-- Whose event comes next (R20, R64). -/
inductive Turn where
  | caller (u : Side)
  | dec
  | enc
  /-- ENC's transfers up to the end of the wire token it stands at, with no other event between. -/
  | encToken
  /-- The caller's transport passes one byte from a looped sink to the source (R64). -/
  | pass
  deriving DecidableEq, Repr, Inhabited

/-- The state of one codec and of what drives it. -/
structure State where
  /-- DEC's registers (R22). -/
  dec    : Dec
  /-- DEC's channels (R83 to R86). -/
  decCh  : DecCh
  /-- ENC's registers (R31). -/
  enc    : Enc
  /-- ENC's channels (R83 to R87). -/
  encCh  : EncCh
  /-- The build parameters (R10), changed by nothing (notes/assumptions/1.md). -/
  params : Params
  /-- The callers' actions still to come (R89). -/
  prog   : Prog
  /-- `some n`: ENC's sink is looped to DEC's source and its first `n` bytes have been passed or came
  before the loop (R64, R89). -/
  loop   : Option Nat
  /-- The order in which the events come (R64), for ever or until it stops: then nothing happens any
  more. -/
  sched  : Feed Turn
  deriving DecidableEq, Repr

/-- The registers that hold no value in some phases (R26, R33, R34). -/
inductive NoValueReg where
  | decId
  | encPkt
  | encK
  deriving DecidableEq, Repr

/-- Why the model stops with a fault. -/
inductive Fault where
  /-- A register that holds no value is read (I12, D16: 'a model faults on a read of them'). Raised by
  `BODY.TERM`, `SNK.ACK`, `SNK.ERR` and the wire tokens in states no run reaches. Safe. -/
  | noValue (r : NoValueReg)
  deriving DecidableEq, Repr

/-- Why the model gives a situation no meaning. -/
inductive Refusal where
  /-- Raised by an arm of `exec` whose instruction has no meaning yet; no arm is in this case. Safe. -/
  | notModelled (mnemonic : String)
  /-- A row is executed in a state that does not select it (R88): the codec has no such transition.
  `step` never does so. Safe. -/
  | rowNotSelected
  /-- Another user reads DEC's source during a command (R65, R205, I7: 'refuse'). Safe. -/
  | sharedSource
  /-- Another user writes ENC's sink during a command (R65, R205, I7: 'refuse'). Safe. -/
  | sharedSink
  deriving DecidableEq, Repr

/-- The sequence with no item. -/
def Feed.empty {α : Type} : Feed α := { listed := [], after := .stops }

/-- A source that is not attached: it never answers (R204; notes/assumptions/7.md). -/
def Source.unattached : Source := Feed.empty

/-- A sink that is not attached: it never answers and holds nothing (R204). -/
def Sink.unattached : Sink := { replies := Feed.empty, taken := [] }

/-- The machine right after reset: both units `IDLE` with the values of R40, no command offered, no
stream attached, no caller action and no event to come (R200, R202). -/
def State.reset : State :=
  { dec := .idle
    decCh := { cmd := false, src := .unattached, res := [] }
    enc := .idle
    encCh := { cmd := none, snk := .unattached, res := [] }
    params := .thisHardware
    prog := { dec := Feed.empty, enc := Feed.empty }
    loop := none
    sched := Feed.empty }

end Sys2Proof.Machine
end

