-- ==== Sys2Proof/Machine/Operands.lean ====
section
/-! DEFINITION. Packets, frames and bodies as functions of byte sequences: what the rows read from and
write to the wire (R29, R73 to R78, R118, R171). -/

namespace Sys2Proof.Machine

/-- `subCode(p)` (R29). -/
def subCode (p : Packet) : Byte :=
  match p.data with
  | [] => 0
  | d :: _ => d

/-- The bytes one data byte contributes to the wire (R144). -/
def stuffByte (d : Byte) : List Byte :=
  if d = DLE then [DLE, DLE] else [d]

/-- `stuff(d)` (R73). -/
def stuff : List Byte → List Byte
  | [] => []
  | d :: r => stuffByte d ++ stuff r

/-- `Frame(p)` (R74) of an encodable packet. R74 defines no frame for a packet whose id is DLE or ETX; that
the same bytes are taken for such a packet is a DESIGN CHOICE (notes/assumptions/20.md), and no run from
`State.inv` writes them. -/
def frame (p : Packet) : List Byte :=
  [DLE, p.id] ++ stuff p.data ++ [DLE, ETX]

/-- `W`, the byte sequence ENC writes in a phase (R34). -/
def wire (c : Params) (ph : EncPhase) (p : Packet) : List Byte :=
  match ph with
  | .idle => []
  | .emit => frame p
  | .reject => List.take c.rejectLen.val [DLE, p.id]

/-- Whether offset `k` of `stuff d ++ [DLE, ETX]` begins a data token or the terminator pair. -/
def bodyBoundary : List Byte → Nat → Bool
  | [], k => decide (k = 0)
  | d :: r, k =>
    if k = 0 then true
    else if (stuffByte d).length ≤ k then bodyBoundary r (k - (stuffByte d).length)
    else false

/-- Whether index `k` of `Frame(p)` begins a wire token (R143 to R145). -/
def tokenBoundary (p : Packet) (k : Nat) : Bool :=
  if k < 2 then decide (k = 0) else bodyBoundary p.data (k - 2)

/-- The wire token that begins at index `k` of `Frame(p)`, read by the decoder. -/
def tokenAt (p : Packet) (k : Nat) : Option Instr :=
  if tokenBoundary p k then
    (decodeRow (if k = 0 then .tokenStart else .tokenBody) (.wire ((frame p).drop k))).instr?
  else none

/-- `go` of R77. -/
def unstuffGo : List Byte → List Byte → Nat → Option (List Byte × Nat)
  | [], _, _ => none
  | [_], _, _ => none
  | b :: c :: r, acc, n =>
    if b = DLE then
      if c = ETX then some (acc, n + 2)
      else unstuffGo r (acc ++ [c]) (n + 2)
    else unstuffGo (c :: r) (acc ++ [b]) (n + 1)

/-- `unstuff(t)`: the stored data and the length of the body consumed (R77). -/
def unstuff (t : List Byte) : Option (List Byte × Nat) := unstuffGo t [] 0

/-- The scan of R78 from index `i`, `prev` telling whether the byte before it was DLE. -/
def frameStartGo : Bool → List Byte → Nat → Option Nat
  | _, [], _ => none
  | prev, b :: r, i =>
    if prev && isOther b then some i else frameStartGo (decide (b = DLE)) r (i + 1)

/-- The least index `i >= 1` with `s[i-1] == DLE` and `class(s[i]) = OTHER` (R78). -/
def frameStart (s : List Byte) : Option Nat := frameStartGo false s 0

/-- The stores a body makes (R76), in order: each stored byte, and how many bytes of the body have been
read when it is stored, `n` of them before `t`. They end with the terminator pair. -/
def bodyStores : List Byte → Nat → List (Byte × Nat)
  | [], _ => []
  | [b], n => if b = DLE then [] else [(b, n + 1)]
  | b :: c :: r, n =>
    if b = DLE then
      if c = ETX then [] else (c, n + 2) :: bodyStores r (n + 2)
    else (b, n + 1) :: bodyStores (c :: r) (n + 1)

/-- `Decode(s)` of R118, with its clause for a finite `MAX_DATA`: the result of one `DECODE` on the
finite source `s`, and how many bytes it consumed. -/
def decodeStream (cap : Option Nat) (s : List Byte) : DecResult × Nat :=
  match frameStart s with
  | none => (.eos, s.length)
  | some i =>
    match cap.bind fun m => (bodyStores (s.drop (i + 1)) 0)[m]? with
    | some (_, n) => (.overflow, i + 1 + n)
    | none =>
      match unstuff (s.drop (i + 1)) with
      | none => (.eos, s.length)
      | some (d, n) => (.ok { id := s.getD i 0, data := d }, i + 1 + n)

/-- The status code of a DEC result (R171). -/
def DecResult.code : DecResult → Nat
  | .ok _ => 0
  | .eos => 1
  | .srcErr _ => 2
  | .overflow => 5

/-- The status code of an ENC result (R171). -/
def EncResult.code : EncResult → Nat
  | .ok => 0
  | .snkErr _ => 3
  | .invalidId _ => 4

end Sys2Proof.Machine
end

