-- ==== Sys2Proof/Machine/Ops.lean ====
section
/-! DEFINITION. The shared operations: updates of the state, the stream primitives (R15), the store
(R114), delivering a result and aborting (R84, R170, R174, R175), the sink transfer (R146, R147) and
reset (R200, R201). -/

namespace Sys2Proof.Machine

/-- The outcome of a transition. -/
abbrev Result := Host.Outcome State Fault Refusal

/-- `s` with DEC's registers replaced. -/
def State.setDec (s : State) (d : Dec) : State := { s with dec := d }

/-- `s` with DEC's channels replaced. -/
def State.setDecCh (s : State) (c : DecCh) : State := { s with decCh := c }

/-- `s` with ENC's registers replaced. -/
def State.setEnc (s : State) (u : Enc) : State := { s with enc := u }

/-- `s` with ENC's channels replaced. -/
def State.setEncCh (s : State) (c : EncCh) : State := { s with encCh := c }

/-- `s` with the callers' remaining actions replaced. -/
def State.setProg (s : State) (p : Prog) : State := { s with prog := p }

/-- `s` with the loopback replaced. -/
def State.setLoop (s : State) (l : Option Nat) : State := { s with loop := l }

/-- `s` with the order of the events to come replaced. -/
def State.setSched (s : State) (t : Feed Turn) : State := { s with sched := t }

/-- A row takes its effect where it is selected; elsewhere the codec has no such transition (R88). -/
def onRow (selected : Bool) (o : Result) : Result :=
  if selected then o else .refused .rowNotSelected

/-! ### Sequences, the source and the sink -/

/-- The next item of a sequence; none where it has stopped. -/
def Feed.next {α : Type} [Inhabited α] (q : Feed α) : Option α :=
  match q.listed with
  | a :: _ => some a
  | [] =>
    match q.after with
    | .stops => none
    | .repeats a _ => some a
    | .endless stream pos => some (freeItem α stream pos)

/-- What follows a tail's first item. -/
def Tail.pop {α : Type} (x : Tail α) : Tail α :=
  match x with
  | .stops => .stops
  | .repeats a [] => .repeats a []
  | .repeats a (b :: l) => .repeats b (l ++ [a])
  | .endless stream pos => .endless stream (pos + 1)

/-- The sequence after its next item: no item is given twice (R51, R59). -/
def Feed.pop {α : Type} (q : Feed α) : Feed α :=
  match q.listed with
  | _ :: r => { q with listed := r }
  | [] => { q with after := q.after.pop }

/-- The sequence gives the items of `l`, in this order, and is then `r`. -/
def Feed.yields {α : Type} [Inhabited α] (q : Feed α) (l : List α) (r : Feed α) : Prop :=
  match l with
  | [] => q = r
  | a :: l => q.next = some a ∧ q.pop.yields l r

/-- The finite source of R51: the bytes of `s`, then `Eos` to every later read. -/
def Source.ofBytes (s : List Byte) : Source :=
  { listed := s.map .byte, after := .repeats .eos [] }

/-- The reply the sink gives to the next write; none while it does not answer (R52). -/
def Sink.next (q : Sink) : Option SnkReply := q.replies.next

/-- The sink after it has given that reply (R52). -/
def Sink.pop (q : Sink) : Sink := { q with replies := q.replies.pop }

/-- The sink with one byte appended (R52, R60). -/
def Sink.put (q : Sink) (b : Byte) : Sink := { q with taken := q.taken ++ [b] }

/-- The answer ENC sees of a reply (R87). -/
def SnkReply.answer : SnkReply → SnkAnswer
  | .ack => .ack
  | .err e _ => .err e

/-- DEC takes the answer to its outstanding read (R58, R59). -/
def takeAnswer (s : State) : State :=
  s.setDecCh { s.decCh with src := s.decCh.src.pop }

/-! ### Results -/

/-- `respond` of DEC: the result goes to the caller and the registers take the values of R40 in the
same transition (R84, R170). Every failure of DEC is taken by this one operation (R174): the data and
the id are discarded, no handler is entered and nothing is saved (R182). -/
def respondDec (r : DecResult) (s : State) : State :=
  (s.setDec .idle).setDecCh { s.decCh with res := s.decCh.res ++ [r] }

/-- `respond` of ENC (R84, R170, R175). -/
def respondEnc (r : EncResult) (s : State) : State :=
  (s.setEnc .idle).setEncCh { s.encCh with res := s.encCh.res ++ [r] }

/-- `Store(b)`: append, or end the command with Overflow when a finite capacity is full (R114). -/
def storeByte (b : Byte) (s : State) : State :=
  if s.params.maxData = some s.dec.data.length then respondDec .overflow s
  else s.setDec { s.dec with data := s.dec.data ++ [b] }

/-! ### The sink transfer -/

/-- The packet, the index and the offered byte `W[ENC.k]` of the outstanding write (R34, R140), given
to `f`. A register that holds no value faults (I12); with no byte on offer there is no transfer. -/
def withOffer (s : State) (f : Packet → Nat → Byte → Result) : Result :=
  match s.enc.pkt with
  | none => .fault (.noValue .encPkt)
  | some p =>
    match s.enc.k with
    | none => .fault (.noValue .encK)
    | some k =>
      match (wire s.params s.enc.phase p)[k]? with
      | none => .refused .rowNotSelected
      | some b => f p k b

/-- The sink's reply has been given; with `put` the offered byte is in the sink (R59, R60). -/
def takeReply (put : Option Byte) (s : State) : State :=
  match put with
  | none => s.setEncCh { s.encCh with snk := s.encCh.snk.pop }
  | some b => s.setEncCh { s.encCh with snk := s.encCh.snk.pop.put b }

/-- What ENC does once the sink has taken `W[k]`: offer the next byte, or deliver the result when `W`
is written (R146). -/
def advance (p : Packet) (k : Nat) (s : State) : State :=
  if k + 1 < (wire s.params s.enc.phase p).length then s.setEnc { s.enc with k := some (k + 1) }
  else if s.enc.phase = .emit then respondEnc .ok s
  else respondEnc (.invalidId p.id) s

/-- The sink takes the offered byte (R146). -/
def sinkAck (s : State) : Result :=
  withOffer s fun p k b => .next (advance p k (takeReply (some b) s))

/-- The write fails; the sink holds the offered byte or does not (R60, R147). -/
def sinkErr (e : SnkErr) (landed : Bool) (s : State) : Result :=
  withOffer s fun _ _ b =>
    .next (respondEnc (.snkErr e) (takeReply (if landed then some b else none) s))

/-- Up to `n` transfers one after another: the bytes of a wire token (R57, R143 to R145). A failing
write ends the command and the run (R147); a sink that does not answer leaves ENC waiting (R153). -/
def writeBytes : Nat → State → Result
  | 0, s => .next s
  | n + 1, s =>
    match s.encCh.snk.next with
    | none => .next s
    | some (.err e landed) => sinkErr e landed s
    | some .ack =>
      match sinkAck s with
      | .next t => writeBytes n t
      | o => o

/-- The wire token ENC stands at: in `EMIT`, with `ENC.k` at the first byte of a token. -/
def tokenDue (s : State) : Option Instr :=
  if s.enc.phase = .emit then
    match s.enc.pkt, s.enc.k with
    | some p, some k => tokenAt p k
    | _, _ => none
  else none

/-- Write the bytes of the wire token `i`, where ENC stands at it. -/
def writeToken (i : Instr) (s : State) : Result :=
  onRow (decide (tokenDue s = some i)) (writeBytes (encode i).length s)

/-! ### Reset -/

/-- Reset reaches DEC (R200); `readLost`: the withdrawn read was answered all the same, and no unit
receives the answer (R201). With no read outstanding nothing is lost. Where the source has no answer yet
nothing is lost either, also of what a loopback passes later: the spec is silent, a DESIGN CHOICE
(notes/assumptions/22.md). -/
def resetDec (readLost : Bool) (s : State) : State :=
  let t := if readLost && decide (s.dec.phase ≠ .idle) then takeAnswer s else s
  t.setDec .idle

/-- The byte of the outstanding write, if there is one (R140). -/
def offered? (s : State) : Option Byte :=
  match s.enc.pkt, s.enc.k with
  | some p, some k => (wire s.params s.enc.phase p)[k]?
  | _, _ => none

/-- Reset reaches ENC (R200); `writeLanded`: the byte of the withdrawn write is in the sink (R201), and the
sink's next reply is spent on it. A withdrawn write whose byte is not in the sink spends no reply: the
spec is silent, a DESIGN CHOICE (notes/assumptions/21.md). -/
def resetEnc (writeLanded : Bool) (s : State) : State :=
  let t :=
    match offered? s with
    | some b => if writeLanded then takeReply (some b) s else s
    | none => s
  t.setEnc .idle

end Sys2Proof.Machine
end

