-- ==== Sys2Proof/Machine/Caller.lean ====
section
/-! DEFINITION. The callers (R20, R184): their actions (R89), reset (R200, R201), other users of a stream (R65)
and the transport of a loopback (R64). -/

namespace Sys2Proof.Machine

/-- Whether a DECODE is in progress or waits. -/
def decBusy (s : State) : Bool := decide (s.dec.phase ≠ .idle) || s.decCh.cmd

/-- Whether an ENCODE is in progress or waits. -/
def encBusy (s : State) : Bool := decide (s.enc.phase ≠ .idle) || s.encCh.cmd.isSome

/-- A caller's next action; `s` no longer lists it, `wait` is the state in which it still does. An
action that cannot happen yet is not lost: the caller waits (R83). The model's choices, where the spec is
silent: a command or a stream waits for its unit, while `LOOP` acts at once, even on a unit that is
busy; either caller's list may command either unit (notes/assumptions/6.md); a loop survives a new
source and ends with a new sink, and a second `LOOP` restarts its count, so bytes still owed under the
first are never passed (notes/assumptions/12.md); another writer's byte never fails and spends no reply of
the sink (notes/assumptions/23.md). -/
def act (a : Act) (wait s : State) : Result :=
  match a with
  | .source q => .next (if decBusy s then wait else s.setDecCh { s.decCh with src := q })
  | .sink q =>
    .next (if encBusy s then wait else (s.setEncCh { s.encCh with snk := q }).setLoop none)
  | .decode => .next (if s.decCh.cmd then wait else s.setDecCh { s.decCh with cmd := true })
  | .encode p =>
    .next (if s.encCh.cmd.isSome then wait else s.setEncCh { s.encCh with cmd := some p })
  | .loop x =>
    .next ((s.setDecCh { s.decCh with src := { s.decCh.src with after := x } }).setLoop
      (some s.encCh.snk.taken.length))
  | .reset d e readLost writeLanded =>
    let t := if d then resetDec readLost s else s
    .next (if e then resetEnc writeLanded t else t)
  | .otherReader =>
    if s.dec.phase = .idle then .next (takeAnswer s) else .refused .sharedSource
  | .otherWriter b =>
    if s.enc.phase = .idle then .next (s.setEncCh { s.encCh with snk := s.encCh.snk.put b })
    else .refused .sharedSink

/-- The next action of one caller, and the actions that are then left. -/
def Prog.take (u : Side) (p : Prog) : Option (Act × Prog) :=
  match u with
  | .dec => p.dec.next.map fun a => (a, { p with dec := p.dec.pop })
  | .enc => p.enc.next.map fun a => (a, { p with enc := p.enc.pop })

/-- A caller's turn: its own actions come in program order, those of the two callers in any
(R89). -/
def callerTurn (u : Side) (s : State) : Result :=
  match s.prog.take u with
  | none => .next s
  | some (a, rest) => act a s (s.setProg rest)

/-- The transport passes the next byte the looped sink took to the end of DEC's source (R64, R89). -/
def passByte (s : State) : State :=
  match s.loop with
  | none => s
  | some n =>
    match s.encCh.snk.taken[n]? with
    | none => s
    | some b =>
      (s.setDecCh { s.decCh with
        src := { s.decCh.src with listed := s.decCh.src.listed ++ [.byte b] } }).setLoop (some (n + 1))

end Sys2Proof.Machine
end

