-- ==== Sys2Proof/Machine/Flags.lean ====
section
/-! DEFINITION. The two flags, `DEC.prevDLE` and `DEC.dleOdd` (R24, R25, R37). ENC has none. -/

namespace Sys2Proof.Machine

/-- `DEC.prevDLE <- v`. -/
def setPrevDLE (v : Bool) (s : State) : State := s.setDec { s.dec with prevDLE := v }

/-- `DEC.dleOdd <- v`. -/
def setDleOdd (v : Bool) (s : State) : State := s.setDec { s.dec with dleOdd := v }

/-- The source's counter `dleRun` after a body byte, with a literal ETX leaving it unchanged; it may
also reset it (R116, C2). `DEC.dleOdd` keeps its parity only. -/
def dleRunNext (etxResets : Bool) (n : Nat) (b : Byte) : Nat :=
  match classOf b with
  | .dle => n + 1
  | .etx => if etxResets then 0 else n
  | .other => 0

end Sys2Proof.Machine
end

