-- ==== Sys2Proof/Machine/Scan.lean ====
section
/-! DEFINITION. DEC's command and its scan: `DECODE` and the rows of `SCAN` (R101 to R105). -/

namespace Sys2Proof.Machine

/-- Whether DEC stands in phase `ph` and its source answers `a`: what selects a row on an answer
(R88, R100). -/
def answered (ph : DecPhase) (a : SrcAnswer) (s : State) : Bool :=
  decide (s.dec.phase = ph) && decide (s.decCh.src.next = some a)

/-- `DECODE` (R101). A unit that is not `IDLE` does not accept it: it waits on the channel (R83). -/
def execDecode (s : State) : Result :=
  if s.dec.phase = .idle then
    .next
      ((s.setDec { phase := .scan, prevDLE := false, dleOdd := false, id := none, data := [] }).setDecCh
        { s.decCh with cmd := false })
  else .next (s.setDecCh { s.decCh with cmd := true })

/-- `SCAN.DLE` (R102). -/
def execScanDle (s : State) : Result :=
  onRow (answered .scan (.byte DLE) s) (.next (setPrevDLE true (takeAnswer s)))

/-- `SCAN.ETX` (R103). -/
def execScanEtx (s : State) : Result :=
  onRow (answered .scan (.byte ETX) s) (.next (setPrevDLE false (takeAnswer s)))

/-- `SCAN.SKIP` (R104). -/
def execScanSkip (b : Byte) (s : State) : Result :=
  onRow (answered .scan (.byte b) s && isOther b && !s.dec.prevDLE)
    (.next (setPrevDLE false (takeAnswer s)))

/-- `SCAN.START` (R105). `DEC.prevDLE` is not written. -/
def execScanStart (b : Byte) (s : State) : Result :=
  onRow (answered .scan (.byte b) s && isOther b && s.dec.prevDLE)
    (.next ((takeAnswer s).setDec
      { s.dec with phase := .body, dleOdd := false, id := some b, data := [] }))

end Sys2Proof.Machine
end

