-- ==== Sys2Proof/Machine/Body.lean ====
section
/-! DEFINITION. Body accumulation and termination: the rows of `BODY` (R106 to R111). -/

namespace Sys2Proof.Machine

/-- `BODY.DLE` (R106). -/
def execBodyDle (s : State) : Result :=
  onRow (answered .body (.byte DLE) s && !s.dec.dleOdd) (.next (setDleOdd true (takeAnswer s)))

/-- `BODY.ESC` (R107). -/
def execBodyEsc (s : State) : Result :=
  onRow (answered .body (.byte DLE) s && s.dec.dleOdd)
    (.next (setDleOdd false (storeByte DLE (takeAnswer s))))

/-- `BODY.TERM` (R108). -/
def execBodyTerm (s : State) : Result :=
  onRow (answered .body (.byte ETX) s && s.dec.dleOdd)
    (match s.dec.id with
     | none => .fault (.noValue .decId)
     | some id => .next (respondDec (.ok { id := id, data := s.dec.data }) (takeAnswer s)))

/-- `BODY.ETXLIT` (R109). `DEC.dleOdd` is not written. -/
def execBodyEtxlit (s : State) : Result :=
  onRow (answered .body (.byte ETX) s && !s.dec.dleOdd) (.next (storeByte ETX (takeAnswer s)))

/-- `BODY.DROP` (R110): the withheld DLE is never stored. -/
def execBodyDrop (b : Byte) (s : State) : Result :=
  onRow (answered .body (.byte b) s && isOther b && s.dec.dleOdd)
    (.next (setDleOdd false (storeByte b (takeAnswer s))))

/-- `BODY.LIT` (R111). -/
def execBodyLit (b : Byte) (s : State) : Result :=
  onRow (answered .body (.byte b) s && isOther b && !s.dec.dleOdd)
    (.next (setDleOdd false (storeByte b (takeAnswer s))))

end Sys2Proof.Machine
end

