-- ==== Sys2Proof/Machine/Encoder.lean ====
section
/-! DEFINITION. The encoder: `ENCODE`, `ENCODE.REJECT`, `SNK.ACK`, `SNK.ERR` (R141, R142, R146, R147). -/

namespace Sys2Proof.Machine

/-- The command `ENCODE(p)` leaves `ENC.cmd` when it is accepted. -/
def takeEncode (p : Packet) (s : State) : State :=
  s.setEncCh { s.encCh with cmd := if s.encCh.cmd = some p then none else s.encCh.cmd }

/-- The command `ENCODE(p)` offered to a busy unit waits on `ENC.cmd`, which holds one (R83). -/
def holdEncode (p : Packet) (s : State) : State :=
  s.setEncCh { s.encCh with cmd := some (s.encCh.cmd.getD p) }

/-- `ENCODE` (R141). -/
def execEncode (p : Packet) (s : State) : Result :=
  onRow p.encodable
    (.next
      (if s.enc.phase = .idle then
        (takeEncode p s).setEnc { phase := .emit, pkt := some p, k := some 0 }
      else holdEncode p s))

/-- `ENCODE.REJECT` (R142). -/
def execEncodeReject (p : Packet) (s : State) : Result :=
  onRow (!p.encodable)
    (.next
      (if s.enc.phase = .idle then
        if s.params.rejectLen = 0 then respondEnc (.invalidId p.id) (takeEncode p s)
        else (takeEncode p s).setEnc { phase := .reject, pkt := some p, k := some 0 }
      else holdEncode p s))

/-- `SNK.ACK` (R146). -/
def execSnkAck (s : State) : Result :=
  onRow (decide (s.enc.phase ≠ .idle) && decide (s.encCh.snk.next = some .ack)) (sinkAck s)

/-- `SNK.ERR` (R147). -/
def execSnkErr (e : SnkErr) (s : State) : Result :=
  match s.encCh.snk.next with
  | some (.err e' landed) =>
    onRow (decide (s.enc.phase ≠ .idle) && decide (e' = e)) (sinkErr e landed s)
  | _ => .refused .rowNotSelected

end Sys2Proof.Machine
end

