-- ==== Sys2Proof/Machine/SrcFail.lean ====
section
/-! DEFINITION. Abort on a failure of the source: `SRC.EOS` and `SRC.ERR` (R112, R113). -/

namespace Sys2Proof.Machine

/-- `SRC.EOS` (R112). -/
def execSrcEos (s : State) : Result :=
  onRow (answered .scan .eos s || answered .body .eos s) (.next (respondDec .eos (takeAnswer s)))

/-- `SRC.ERR` (R113). -/
def execSrcErr (e : SrcErr) (s : State) : Result :=
  onRow (answered .scan (.err e) s || answered .body (.err e) s)
    (.next (respondDec (.srcErr e) (takeAnswer s)))

end Sys2Proof.Machine
end

