-- ==== Sys2Proof/Machine/Token.lean ====
section
/-! DEFINITION. The wire tokens ENC writes (R143 to R145): the transfers of one token, byte by byte
(R57), each with its own answer of the sink. -/

namespace Sys2Proof.Machine

/-- `ENC_TOKEN.START`: write DLE, then `id` (R143). -/
def execEncTokenStart (id : Byte) (s : State) : Result := writeToken (.encTokenStart id) s

/-- `ENC_TOKEN.LIT`: write the data byte verbatim (R144). -/
def execEncTokenLit (d : Byte) (s : State) : Result := writeToken (.encTokenLit d) s

/-- `ENC_TOKEN.ESC`: write DLE, DLE (R144). -/
def execEncTokenEsc (s : State) : Result := writeToken .encTokenEsc s

/-- `ENC_TOKEN.TERM`: write DLE, ETX (R145). -/
def execEncTokenTerm (s : State) : Result := writeToken .encTokenTerm s

end Sys2Proof.Machine
end

