-- ==== Sys2Proof/Machine/Dispatch.lean ====
section
/-! DEFINITION. One arm per row of the opcode table. -/

namespace Sys2Proof.Machine

def exec (i : Instr) (s : State) : Host.Outcome State Fault Refusal :=
  match i with
  | .decode => Sys2Proof.Machine.execDecode s
  | .scanDle => Sys2Proof.Machine.execScanDle s
  | .scanEtx => Sys2Proof.Machine.execScanEtx s
  | .scanSkip b => Sys2Proof.Machine.execScanSkip b s
  | .scanStart b => Sys2Proof.Machine.execScanStart b s
  | .bodyDle => Sys2Proof.Machine.execBodyDle s
  | .bodyEsc => Sys2Proof.Machine.execBodyEsc s
  | .bodyTerm => Sys2Proof.Machine.execBodyTerm s
  | .bodyEtxlit => Sys2Proof.Machine.execBodyEtxlit s
  | .bodyDrop b => Sys2Proof.Machine.execBodyDrop b s
  | .bodyLit b => Sys2Proof.Machine.execBodyLit b s
  | .srcEos => Sys2Proof.Machine.execSrcEos s
  | .srcErr e => Sys2Proof.Machine.execSrcErr e s
  | .encode p => Sys2Proof.Machine.execEncode p s
  | .encodeReject p => Sys2Proof.Machine.execEncodeReject p s
  | .snkAck => Sys2Proof.Machine.execSnkAck s
  | .snkErr e => Sys2Proof.Machine.execSnkErr e s
  | .encTokenStart id => Sys2Proof.Machine.execEncTokenStart id s
  | .encTokenLit d => Sys2Proof.Machine.execEncTokenLit d s
  | .encTokenEsc => Sys2Proof.Machine.execEncTokenEsc s
  | .encTokenTerm => Sys2Proof.Machine.execEncTokenTerm s

end Sys2Proof.Machine
end

