-- ==== Sys2Proof/Machine/Fetch.lean ====
section
/-! DEFINITION. The event a unit takes next and the row it selects (R88, R100, R140). -/

namespace Sys2Proof.Machine

/-- What of DEC's registers selects a row (R88). -/
def Dec.ctx (d : Dec) : Ctx :=
  match d.phase with
  | .idle => .decIdle
  | .scan => .scan d.prevDLE
  | .body => .body d.dleOdd

/-- DEC's event: a waiting command in `IDLE`, else the source's answer (R100). -/
def decEvent (s : State) : Option Event :=
  if s.dec.phase = .idle then if s.decCh.cmd then some .cmdDecode else none
  else s.decCh.src.next.map .src

/-- What of ENC's registers selects a row (R88). -/
def Enc.ctx (u : Enc) : Ctx :=
  match u.phase with
  | .idle => .encIdle
  | .emit => .emit
  | .reject => .reject

/-- ENC's event: a waiting command in `IDLE`, else the sink's answer (R140). -/
def encEvent (s : State) : Option Event :=
  if s.enc.phase = .idle then s.encCh.cmd.map .cmdEncode
  else s.encCh.snk.next.map fun r => .snk r.answer

/-- The row DEC runs next; none while it waits. -/
def fetchDec (s : State) : Option Instr :=
  (decEvent s).bind fun e => (decodeRow s.dec.ctx e).instr?

/-- The row ENC runs next; none while it waits. -/
def fetchEnc (s : State) : Option Instr :=
  (encEvent s).bind fun e => (decodeRow s.enc.ctx e).instr?

/-- The wire token ENC stands at, where the sink answers; else the row ENC runs next. -/
def fetchToken (s : State) : Option Instr :=
  if s.encCh.snk.next.isSome then (tokenDue s).or (fetchEnc s) else fetchEnc s

end Sys2Proof.Machine
end

