-- ==== Sys2Proof/Machine/Place.lean ====
section
/-! DEFINITION. Placing one table word where the machine takes its next event
(notes/assumptions/3.md, 4.md). -/

namespace Sys2Proof.Machine

/-- DEC as `DECODE` leaves it, its source answering `b` next, and DEC's turn first. -/
def placeByte (b : Byte) (s : State) : State :=
  ((s.setDec { phase := .scan, prevDLE := false, dleOdd := false, id := none, data := [] }).setDecCh
    { s.decCh with src := { s.decCh.src with listed := .byte b :: s.decCh.src.listed } }).setSched
    { s.sched with listed := .dec :: s.sched.listed }

/-- ENC in `EMIT` at index `k` of the frame of `p`, a sink that takes the token's two bytes, and the
token's turn first. -/
def placeToken (p : Packet) (k : Nat) (s : State) : State :=
  ((s.setEnc { phase := .emit, pkt := some p, k := some k }).setEncCh
    { s.encCh with
      snk := { s.encCh.snk with
        replies := { s.encCh.snk.replies with
          listed := .ack :: .ack :: s.encCh.snk.replies.listed } } }).setSched
    { s.sched with listed := .encToken :: s.sched.listed }

/-- The table word `w` of `nbits` bits placed as the next event. -/
def placeTableWord (s : State) (nbits w : Nat) : State :=
  match decodeTableWord nbits w with
  | some (.encTokenStart id) => placeToken { id := id, data := [] } 0 s
  | some .encTokenEsc => placeToken { id := 0, data := [DLE] } 2 s
  | some .encTokenTerm => placeToken { id := 0, data := [] } 2 s
  | _ => placeByte (BitVec.ofNat 8 w) s

end Sys2Proof.Machine
end

