-- ==== Sys2Proof/Machine/Step.lean ====
section
/-! DEFINITION. One step: the event whose turn it is (R20, R100, R140). -/

namespace Sys2Proof.Machine

/-- Run the row a unit has fetched; a unit with no event waits and loses no state (R188). -/
def runRow (i : Option Instr) (s : State) : Host.Outcome State Fault Refusal :=
  match i with
  | none => .next s
  | some i => exec i s

/-- The event whose turn it is. -/
def turn (t : Turn) (s : State) : Host.Outcome State Fault Refusal :=
  match t with
  | .caller u => callerTurn u s
  | .dec => runRow (fetchDec s) s
  | .enc => runRow (fetchEnc s) s
  | .encToken => runRow (fetchToken s) s
  | .pass => .next (passByte s)

/-- The next event of the schedule. Where the schedule has stopped nothing happens: every unit waits
(R119, R153). -/
def step (s : State) : Host.Outcome State Fault Refusal :=
  match s.sched.next with
  | none => .next s
  | some t => turn t (s.setSched s.sched.pop)

/-- `s` with a table word placed as its very next event. -/
def State.withFetchWord (s : State) (nbits w : Nat) : State := placeTableWord s nbits w

end Sys2Proof.Machine
end

