-- ==== Sys2Proof/Machine/Run.lean ====
section
/-! DEFINITION. Many steps, and many codecs. -/

namespace Sys2Proof.Machine

/-- `n` steps, stopping at the first fault or refusal. -/
def steps : Nat → State → Host.Outcome State Fault Refusal
  | 0, s => .next s
  | n + 1, s =>
    match step s with
    | .next t => steps n t
    | .fault f => .fault f
    | .refused r => .refused r

/-- Any number of codecs may stand side by side (R180), each with its own registers and channels; one
of them steps at a time, in any order (R64). The codec with index `n` takes one step and the others
none; an index with no codec changes nothing. -/
def stepAt (n : Nat) (us : List State) : Host.Outcome (List State) Fault Refusal :=
  match us[n]? with
  | none => .next us
  | some u =>
    match step u with
    | .next t => .next (us.set n t)
    | .fault f => .fault f
    | .refused r => .refused r

end Sys2Proof.Machine
end

