-- ==== Sys2Proof/Safety.lean ====
section
/-! DEFINITION. What a run keeps: which registers hold a value and within which bounds, what is ever
delivered, and which stops are not the codec's. -/

namespace Sys2Proof.Machine

/-- A byte count within `MAX_DATA` (R27). -/
def withinMax (c : Params) (n : Nat) : Bool :=
  match c.maxData with
  | none => true
  | some m => decide (n ≤ m)

/-- DEC's registers agree with its phase: the values of R40 in `IDLE`, no `id` and no data before a
frame start, an OTHER `id` (R26, R105) and at most `MAX_DATA` bytes (R27) in `BODY`. -/
def decOk (c : Params) (d : Dec) : Bool :=
  match d.phase with
  | .idle => decide (d = .idle)
  | .scan => !d.dleOdd && d.id.isNone && d.data.isEmpty
  | .body => d.id.any isOther && withinMax c d.data.length

/-- ENC's registers agree with its phase: the values of R40 in `IDLE`; else a latched packet (R33),
encodable in `EMIT` (R141) and reserved in `REJECT` (R142), and an index below `|W|`: a byte is on
offer (R34, R140). -/
def encOk (c : Params) (u : Enc) : Bool :=
  match u.phase, u.pkt, u.k with
  | .idle, pkt, k => pkt.isNone && k.isNone
  | .emit, some p, some k => p.encodable && decide (k < (wire c .emit p).length)
  | .reject, some p, some k => !p.encodable && decide (k < (wire c .reject p).length)
  | _, _, _ => false

/-- A delivered DEC result: a packet is encodable (R30) and within `MAX_DATA` (R27); `OVERFLOW` only
with a finite `MAX_DATA` (R171). -/
def decResultOk (c : Params) : DecResult → Bool
  | .ok p => p.encodable && withinMax c p.data.length
  | .eos => true
  | .srcErr _ => true
  | .overflow => c.maxData.isSome

/-- A delivered ENC result: a refused `id` is reserved (R176). -/
def encResultOk : EncResult → Bool
  | .ok => true
  | .invalidId id => !isOther id
  | .snkErr _ => true

/-- The loopback has passed no more than the sink holds (R64). -/
def loopOk (s : State) : Bool :=
  match s.loop with
  | none => true
  | some n => decide (n ≤ s.encCh.snk.taken.length)

/-- The invariant of a run. -/
def State.inv (s : State) : Bool :=
  decOk s.params s.dec && encOk s.params s.enc && s.decCh.res.all (decResultOk s.params)
    && s.encCh.res.all encResultOk && loopOk s

/-- The stops a run can meet: another user of a stream during a command (R65, R205). The codec itself
never stops. -/
def Refusal.isSharing : Refusal → Bool
  | .sharedSource => true
  | .sharedSink => true
  | _ => false

end Sys2Proof.Machine
end

