-- ==== Sys2Proof/Certificates/Slice0/Obligations.lean ====
section
/-! DEFINITION. The statements for the provers. Bytes are written as numerals, not through the model's
own constants, where a rule gives the numeral. -/

section
open Sys2Proof Sys2Proof.Machine

/-! ### Selection and encoding -/

/-- R88: in every context that admits a well-formed row, the decoder reads that row from its event. -/
def Obligations.DecodeOfEncodedRowIsTheRow : Prop :=
  ∀ (c : Ctx) (i : Instr), i.wf = true → admits c i = true →
    decodeRow c (eventOf i) = .row i ∧
    (∀ b : Byte, eventOf i = .src (.byte b) → encode i = [b]) ∧
    (∀ bs : List Byte, eventOf i = .wire bs →
      encode i = bs ∧ ∀ r : List Byte, decodeRow c (.wire (bs ++ r)) = .row i)

/-- R88, 'Exactly one row applies to each (unit, phase, answer) combination in which a transfer
completes': for each phase and flag of a unit and each event of its channel there is one row, and it
is well-formed, admitted by the phase and flag, and selected by that event. -/
def Obligations.EveryTransferSelectsExactlyOneRow : Prop :=
  ∀ (c : Ctx) (e : Event),
    ((c = .decIdle ∧ e = .cmdDecode) ∨
      (∃ f a, (c = .scan f ∨ c = .body f) ∧ e = .src a) ∨
      (c = .encIdle ∧ ∃ p, e = .cmdEncode p) ∨
      ((c = .emit ∨ c = .reject) ∧ ∃ a, e = .snk a)) →
    ∃ i, decodeRow c e = .row i ∧ i.wf = true ∧ admits c i = true ∧ eventOf i = e ∧
      ∀ j : Instr, j.wf = true → admits c j = true → eventOf j = e → j = i

/-- A few bytes and the rows they stand for (R102, R103, R104, R107, R108, R110, R143, R144, R145); which row a table
word without context stands for is the model's choice (notes/assumptions/3.md). -/
def Obligations.SampleBytesDecodeToTheirRows : Prop :=
  decodeTableWord 8 0x10 = some .scanDle ∧
  decodeTableWord 8 0x03 = some .scanEtx ∧
  decodeTableWord 8 0x8F = some (.scanSkip 0x8F#8) ∧
  decodeTableWord 16 0x8F10 = some (.encTokenStart 0x8F#8) ∧
  decodeTableWord 16 0x1010 = some .encTokenEsc ∧
  decodeTableWord 16 0x0310 = some .encTokenTerm ∧
  decodeRow (.scan true) (.src (.byte 0x8F#8)) = .row (.scanStart 0x8F#8) ∧
  decodeRow (.body true) (.src (.byte 0x10#8)) = .row .bodyEsc ∧
  decodeRow (.body true) (.src (.byte 0x03#8)) = .row .bodyTerm ∧
  decodeRow (.body true) (.src (.byte 0x41#8)) = .row (.bodyDrop 0x41#8) ∧
  decodeRow .tokenBody (.wire [0x03#8, 0x10#8]) = .row (.encTokenLit 0x03#8)

/-- R100, R140: a step runs the row that the unit's phase, flag and event decode to, on the state whose
schedule has given this turn; a unit with no event waits. That the order of the turns is in the state is
the model's choice (notes/assumptions/5.md). -/
def Obligations.StepRunsTheDecodedRow : Prop :=
  (∀ (s : State) (e : Event) (i : Instr), s.sched.next = some .dec →
    decEvent s = some e → decodeRow s.dec.ctx e = .row i →
    step s = exec i { s with sched := s.sched.pop }) ∧
  (∀ (s : State) (e : Event) (i : Instr), s.sched.next = some .enc →
    encEvent s = some e → decodeRow s.enc.ctx e = .row i →
    step s = exec i { s with sched := s.sched.pop }) ∧
  (∀ (s : State) (i : Instr), s.sched.next = some .encToken →
    s.encCh.snk.next ≠ none → tokenDue s = some i →
    step s = exec i { s with sched := s.sched.pop }) ∧
  (∀ s : State, s.sched.next = some .dec → decEvent s = none →
    step s = .next { s with sched := s.sched.pop }) ∧
  (∀ s : State, s.sched.next = some .enc ∨ s.sched.next = some .encToken →
    encEvent s = none → step s = .next { s with sched := s.sched.pop }) ∧
  ∀ s : State, s.sched.next = none → step s = .next s

/-- The model's choice (notes/assumptions/3.md, 4.md): a placed table word is the next row run. -/
def Obligations.PlacedTableWordRunsNext : Prop :=
  ∀ (s : State) (nbits w : Nat) (i : Instr), decodeTableWord nbits w = some i →
    step (s.withFetchWord nbits w) = exec i { s.withFetchWord nbits w with sched := s.sched }

/-- R88: a row runs where the unit's phase, flag and event select it and nowhere else. Elsewhere it is
refused by name (the model's choice, notes/assumptions/10.md); where it is selected it is not refused
(the rows of ENC in states that meet the invariant). A command row runs for the operands it admits, on a
busy unit too (notes/assumptions/15.md). -/
def Obligations.AnswerRowRunsOnlyWhereSelected : Prop :=
  (∀ (i : Instr) (s : State), (∃ a, eventOf i = .src a) →
    (fetchDec s ≠ some i → exec i s = .refused .rowNotSelected) ∧
    (fetchDec s = some i → ∀ r, exec i s ≠ .refused r)) ∧
  (∀ (i : Instr) (s : State), (∃ a, eventOf i = .snk a) →
    (fetchEnc s ≠ some i → exec i s = .refused .rowNotSelected) ∧
    (fetchEnc s = some i → s.inv = true → ∃ t, exec i s = .next t)) ∧
  (∀ (i : Instr) (s : State), (∃ bs, eventOf i = .wire bs) →
    (tokenDue s ≠ some i → exec i s = .refused .rowNotSelected) ∧
    (tokenDue s = some i → s.inv = true → ∃ t, exec i s = .next t)) ∧
  ∀ (i : Instr) (s : State), i = .decode ∨ (∃ p, i = .encode p ∨ i = .encodeReject p) →
    (i.wf = false → exec i s = .refused .rowNotSelected) ∧
    (i.wf = true → ∃ t, exec i s = .next t)

/-! ### The decoder, row by row -/

/-- `DECODE` (R101). -/
def Obligations.DecodeStartsAFreshScan : Prop :=
  ∀ s : State, s.dec.phase = .idle → s.decCh.cmd = true →
    fetchDec s = some .decode ∧
    exec .decode s = .next
      { s with
        dec := { phase := .scan, prevDLE := false, dleOdd := false, id := none, data := [] }
        decCh := { s.decCh with cmd := false } }

/-- `SCAN.DLE` (R102). -/
def Obligations.ScanDleRemembersTheDle : Prop :=
  ∀ s : State, s.dec.phase = .scan → s.decCh.src.next = some (.byte 0x10#8) →
    fetchDec s = some .scanDle ∧
    exec .scanDle s = .next
      { s with
        dec := { s.dec with prevDLE := true }
        decCh := { s.decCh with src := s.decCh.src.pop } }

/-- `SCAN.ETX` (R103). -/
def Obligations.ScanEtxForgetsTheDle : Prop :=
  ∀ s : State, s.dec.phase = .scan → s.decCh.src.next = some (.byte 0x03#8) →
    fetchDec s = some .scanEtx ∧
    exec .scanEtx s = .next
      { s with
        dec := { s.dec with prevDLE := false }
        decCh := { s.decCh with src := s.decCh.src.pop } }

/-- `SCAN.SKIP` (R104). -/
def Obligations.ScanSkipDiscardsTheByte : Prop :=
  ∀ (s : State) (b : Byte), b ≠ 0x10#8 → b ≠ 0x03#8 →
    s.dec.phase = .scan → s.dec.prevDLE = false → s.decCh.src.next = some (.byte b) →
    fetchDec s = some (.scanSkip b) ∧
    exec (.scanSkip b) s = .next { s with decCh := { s.decCh with src := s.decCh.src.pop } }

/-- `SCAN.START` (R105). -/
def Obligations.ScanStartAdoptsTheId : Prop :=
  ∀ (s : State) (b : Byte), b ≠ 0x10#8 → b ≠ 0x03#8 →
    s.dec.phase = .scan → s.dec.prevDLE = true → s.decCh.src.next = some (.byte b) →
    fetchDec s = some (.scanStart b) ∧
    exec (.scanStart b) s = .next
      { s with
        dec := { s.dec with phase := .body, dleOdd := false, id := some b, data := [] }
        decCh := { s.decCh with src := s.decCh.src.pop } }

/-- `BODY.DLE` (R106). -/
def Obligations.BodyDleIsWithheld : Prop :=
  ∀ s : State, s.dec.phase = .body → s.dec.dleOdd = false →
    s.decCh.src.next = some (.byte 0x10#8) →
    fetchDec s = some .bodyDle ∧
    exec .bodyDle s = .next
      { s with
        dec := { s.dec with dleOdd := true }
        decCh := { s.decCh with src := s.decCh.src.pop } }

/-- `BODY.ESC` (R107), with the Overflow of R114. -/
def Obligations.BodyEscStoresOneDle : Prop :=
  ∀ s : State, s.dec.phase = .body → s.dec.dleOdd = true →
    s.decCh.src.next = some (.byte 0x10#8) →
    fetchDec s = some .bodyEsc ∧
    exec .bodyEsc s = .next
      (if s.params.maxData = some s.dec.data.length then
        { s with
          dec := Dec.idle
          decCh := { s.decCh with src := s.decCh.src.pop, res := s.decCh.res ++ [.overflow] } }
      else
        { s with
          dec := { s.dec with data := s.dec.data ++ [0x10#8], dleOdd := false }
          decCh := { s.decCh with src := s.decCh.src.pop } })

/-- `BODY.TERM` (R108). -/
def Obligations.BodyTermDeliversThePacket : Prop :=
  ∀ (s : State) (id : Byte), s.dec.phase = .body → s.dec.dleOdd = true → s.dec.id = some id →
    s.decCh.src.next = some (.byte 0x03#8) →
    fetchDec s = some .bodyTerm ∧
    exec .bodyTerm s = .next
      { s with
        dec := Dec.idle
        decCh := { s.decCh with
          src := s.decCh.src.pop
          res := s.decCh.res ++ [.ok { id := id, data := s.dec.data }] } }

/-- `BODY.ETXLIT` (R109), with the Overflow of R114. -/
def Obligations.BodyEtxAtEvenParityIsData : Prop :=
  ∀ s : State, s.dec.phase = .body → s.dec.dleOdd = false →
    s.decCh.src.next = some (.byte 0x03#8) →
    fetchDec s = some .bodyEtxlit ∧
    exec .bodyEtxlit s = .next
      (if s.params.maxData = some s.dec.data.length then
        { s with
          dec := Dec.idle
          decCh := { s.decCh with src := s.decCh.src.pop, res := s.decCh.res ++ [.overflow] } }
      else
        { s with
          dec := { s.dec with data := s.dec.data ++ [0x03#8] }
          decCh := { s.decCh with src := s.decCh.src.pop } })

/-- `BODY.DROP` (R110), with the Overflow of R114. -/
def Obligations.BodyDropLosesTheWithheldDle : Prop :=
  ∀ (s : State) (b : Byte), b ≠ 0x10#8 → b ≠ 0x03#8 → s.dec.phase = .body → s.dec.dleOdd = true →
    s.decCh.src.next = some (.byte b) →
    fetchDec s = some (.bodyDrop b) ∧
    exec (.bodyDrop b) s = .next
      (if s.params.maxData = some s.dec.data.length then
        { s with
          dec := Dec.idle
          decCh := { s.decCh with src := s.decCh.src.pop, res := s.decCh.res ++ [.overflow] } }
      else
        { s with
          dec := { s.dec with data := s.dec.data ++ [b], dleOdd := false }
          decCh := { s.decCh with src := s.decCh.src.pop } })

/-- `BODY.LIT` (R111), with the Overflow of R114. -/
def Obligations.BodyLitStoresTheByte : Prop :=
  ∀ (s : State) (b : Byte), b ≠ 0x10#8 → b ≠ 0x03#8 → s.dec.phase = .body → s.dec.dleOdd = false →
    s.decCh.src.next = some (.byte b) →
    fetchDec s = some (.bodyLit b) ∧
    exec (.bodyLit b) s = .next
      (if s.params.maxData = some s.dec.data.length then
        { s with
          dec := Dec.idle
          decCh := { s.decCh with src := s.decCh.src.pop, res := s.decCh.res ++ [.overflow] } }
      else
        { s with
          dec := { s.dec with data := s.dec.data ++ [b] }
          decCh := { s.decCh with src := s.decCh.src.pop } })

/-- `SRC.EOS` (R112). -/
def Obligations.SourceEndAbortsTheDecode : Prop :=
  ∀ s : State, s.dec.phase = .scan ∨ s.dec.phase = .body → s.decCh.src.next = some .eos →
    fetchDec s = some .srcEos ∧
    exec .srcEos s = .next
      { s with
        dec := Dec.idle
        decCh := { s.decCh with src := s.decCh.src.pop, res := s.decCh.res ++ [.eos] } }

/-- `SRC.ERR` (R113). -/
def Obligations.SourceErrorAbortsTheDecode : Prop :=
  ∀ (s : State) (e : SrcErr), s.dec.phase = .scan ∨ s.dec.phase = .body →
    s.decCh.src.next = some (.err e) →
    fetchDec s = some (.srcErr e) ∧
    exec (.srcErr e) s = .next
      { s with
        dec := Dec.idle
        decCh := { s.decCh with src := s.decCh.src.pop, res := s.decCh.res ++ [.srcErr e] } }

/-- R51, R59: a source's answers come front to back, each once: the listed ones, and then none, the same
ones again and again, or those of an endless sequence. The finite source of the bytes `l` answers them
and then `Eos` to every later read. -/
def Obligations.SourceAnswersFrontToBack : Prop :=
  (∀ (a : SrcAnswer) (l : List SrcAnswer) (x : Tail SrcAnswer) (q : Source),
    q = { listed := a :: l, after := x } →
    q.next = some a ∧ q.pop = { listed := l, after := x }) ∧
  (∀ q : Source, q = { listed := [], after := .stops } → q.next = none ∧ q.pop = q) ∧
  (∀ (a : SrcAnswer) (l : List SrcAnswer) (q : Source), q = { listed := [], after := .repeats a l } →
    q.yields (a :: l) q) ∧
  (∀ (n k : Nat) (q : Source), q = { listed := [], after := .endless n k } →
    q.next = some (freeItem SrcAnswer n k) ∧ q.pop = { listed := [], after := .endless n (k + 1) }) ∧
  ∀ (l : List Byte) (n : Nat), ∃ q,
    (Source.ofBytes l).yields (l.map .byte) q ∧ q.yields (List.replicate n .eos) q

/-- I12, D16: a row that would read a register holding no value faults and names the register. -/
def Obligations.ReadingARegisterWithoutValueFaults : Prop :=
  (∀ s : State, s.dec.phase = .body → s.dec.dleOdd = true → s.dec.id = none →
    s.decCh.src.next = some (.byte 0x03#8) → exec .bodyTerm s = .fault (.noValue .decId)) ∧
  (∀ s : State, s.enc.phase ≠ .idle → s.enc.pkt = none →
    (s.encCh.snk.next = some .ack → exec .snkAck s = .fault (.noValue .encPkt)) ∧
    (∀ e l, s.encCh.snk.next = some (.err e l) →
      exec (.snkErr e) s = .fault (.noValue .encPkt))) ∧
  (∀ (s : State) (p : Packet), s.enc.phase ≠ .idle → s.enc.pkt = some p → s.enc.k = none →
    (s.encCh.snk.next = some .ack → exec .snkAck s = .fault (.noValue .encK)) ∧
    (∀ e l, s.encCh.snk.next = some (.err e l) →
      exec (.snkErr e) s = .fault (.noValue .encK)))

/-! ### The encoder, row by row

Where a statement covers a state of `EMIT` that holds a packet with a reserved id (no run from the invariant
reaches one), it speaks there of the model's extension of `frame` (notes/assumptions/20.md). -/

/-- `ENCODE` (R141). -/
def Obligations.EncodeLatchesThePacket : Prop :=
  ∀ (s : State) (p : Packet), p.id ≠ 0x10#8 → p.id ≠ 0x03#8 →
    s.enc.phase = .idle → s.encCh.cmd = some p →
    fetchEnc s = some (.encode p) ∧
    exec (.encode p) s = .next
      { s with
        enc := { phase := .emit, pkt := some p, k := some 0 }
        encCh := { s.encCh with cmd := none } }

/-- `ENCODE.REJECT` (R142), for every value of `REJECT_PREFIX_LEN`. -/
def Obligations.EncodeRejectRefusesAReservedId : Prop :=
  ∀ (s : State) (p : Packet), p.id = 0x10#8 ∨ p.id = 0x03#8 →
    s.enc.phase = .idle → s.encCh.cmd = some p →
    fetchEnc s = some (.encodeReject p) ∧
    exec (.encodeReject p) s = .next
      (if s.params.rejectLen = 0 then
        { s with
          enc := Enc.idle
          encCh := { s.encCh with cmd := none, res := s.encCh.res ++ [.invalidId p.id] } }
      else
        { s with
          enc := { phase := .reject, pkt := some p, k := some 0 }
          encCh := { s.encCh with cmd := none } })

/-- The model's choice of how R83 reads for a command row run on a busy unit (notes/assumptions/15.md):
the command waits on the channel, which holds one, and nothing else changes. -/
def Obligations.BusyUnitLeavesTheCommandWaiting : Prop :=
  (∀ s : State, s.dec.phase ≠ .idle →
    exec .decode s = .next { s with decCh := { s.decCh with cmd := true } }) ∧
  (∀ (s : State) (p : Packet) (i : Instr), s.enc.phase ≠ .idle →
    (i = .encode p ∧ p.id ≠ 0x10#8 ∧ p.id ≠ 0x03#8) ∨
      (i = .encodeReject p ∧ (p.id = 0x10#8 ∨ p.id = 0x03#8)) →
    exec i s = .next { s with encCh := { s.encCh with cmd := some (s.encCh.cmd.getD p) } })

/-- `SNK.ACK` (R146): the sink takes `W[k]`; ENC offers the next byte, or delivers its result when `W`
is written. -/
def Obligations.SinkAckAdvancesTheFrame : Prop :=
  ∀ (s : State) (p : Packet) (k : Nat) (b : Byte) (w : List Byte),
    (s.enc.phase = .emit ∧ w = frame p) ∨
      (s.enc.phase = .reject ∧ w = [0x10#8, p.id].take s.params.rejectLen.val) →
    s.enc.pkt = some p → s.enc.k = some k → w[k]? = some b → s.encCh.snk.next = some .ack →
    fetchEnc s = some .snkAck ∧
    exec .snkAck s = .next
      (let snk : Sink := { s.encCh.snk.pop with taken := s.encCh.snk.taken ++ [b] }
       if k + 1 < w.length then
         { s with enc := { s.enc with k := some (k + 1) }, encCh := { s.encCh with snk := snk } }
       else
         { s with
           enc := Enc.idle
           encCh := { s.encCh with
             snk := snk
             res := s.encCh.res ++
               [if s.enc.phase = .emit then .ok else .invalidId p.id] } })

/-- `SNK.ERR` (R147): the error value is passed through and the sink holds `W[0..k)` or `W[0..k]`, as
the oracle says (R60). -/
def Obligations.SinkErrorAbortsTheEncode : Prop :=
  ∀ (s : State) (p : Packet) (k : Nat) (b : Byte) (w : List Byte) (e : SnkErr) (landed : Bool),
    (s.enc.phase = .emit ∧ w = frame p) ∨
      (s.enc.phase = .reject ∧ w = [0x10#8, p.id].take s.params.rejectLen.val) →
    s.enc.pkt = some p → s.enc.k = some k → w[k]? = some b →
    s.encCh.snk.next = some (.err e landed) →
    fetchEnc s = some (.snkErr e) ∧
    exec (.snkErr e) s = .next
      { s with
        enc := Enc.idle
        encCh := { s.encCh with
          snk := { s.encCh.snk.pop with
            taken := s.encCh.snk.taken ++ (if landed then [b] else []) }
          res := s.encCh.res ++ [.snkErr e] } }

/-- `ENC_TOKEN.START` (R143), on a sink that takes both bytes. -/
def Obligations.StartTokenWritesDleAndId : Prop :=
  ∀ (s : State) (p : Packet), p.id ≠ 0x10#8 → p.id ≠ 0x03#8 →
    s.enc = { phase := .emit, pkt := some p, k := some 0 } →
    s.encCh.snk.next = some .ack → s.encCh.snk.pop.next = some .ack →
    exec (.encTokenStart p.id) s = .next
      { s with
        enc := { s.enc with k := some 2 }
        encCh := { s.encCh with
          snk := { s.encCh.snk.pop.pop with taken := s.encCh.snk.taken ++ [0x10#8, p.id] } } }

/-- `ENC_TOKEN.LIT` (R144): data byte `data[j]`, not DLE, is written verbatim behind the tokens of the
data bytes before it. -/
def Obligations.LiteralTokenWritesTheByte : Prop :=
  ∀ (s : State) (p : Packet) (j : Nat) (d : Byte), p.data[j]? = some d → d ≠ 0x10#8 →
    s.enc = { phase := .emit, pkt := some p, k := some (2 + (stuff (p.data.take j)).length) } →
    s.encCh.snk.next = some .ack →
    exec (.encTokenLit d) s = .next
      { s with
        enc := { s.enc with k := some (3 + (stuff (p.data.take j)).length) }
        encCh := { s.encCh with
          snk := { s.encCh.snk.pop with taken := s.encCh.snk.taken ++ [d] } } }

/-- `ENC_TOKEN.ESC` (R144): data byte `data[j]`, DLE, is written twice. -/
def Obligations.EscapeTokenWritesTwoDles : Prop :=
  ∀ (s : State) (p : Packet) (j : Nat), p.data[j]? = some 0x10#8 →
    s.enc = { phase := .emit, pkt := some p, k := some (2 + (stuff (p.data.take j)).length) } →
    s.encCh.snk.next = some .ack → s.encCh.snk.pop.next = some .ack →
    exec .encTokenEsc s = .next
      { s with
        enc := { s.enc with k := some (4 + (stuff (p.data.take j)).length) }
        encCh := { s.encCh with
          snk := { s.encCh.snk.pop.pop with taken := s.encCh.snk.taken ++ [0x10#8, 0x10#8] } } }

/-- `ENC_TOKEN.TERM` (R145): the terminator pair is written behind the last data token, and the
command ends `Ok`. -/
def Obligations.TerminatorTokenEndsTheFrame : Prop :=
  ∀ (s : State) (p : Packet),
    s.enc = { phase := .emit, pkt := some p, k := some (2 + (stuff p.data).length) } →
    s.encCh.snk.next = some .ack → s.encCh.snk.pop.next = some .ack →
    exec .encTokenTerm s = .next
      { s with
        enc := Enc.idle
        encCh := { s.encCh with
          snk := { s.encCh.snk.pop.pop with taken := s.encCh.snk.taken ++ [0x10#8, 0x03#8] }
          res := s.encCh.res ++ [.ok] } }

/-! ### Frames and bodies as byte sequences -/

/-- R29. -/
def Obligations.SubCodeIsTheFirstDataByte : Prop :=
  (∀ (id d : Byte) (r : List Byte), subCode { id := id, data := d :: r } = d) ∧
  (∀ id : Byte, subCode { id := id, data := [] } = 0x00#8)

/-- R75. R74 defines no frame for a reserved id: that the statement speaks of such a packet too is the
model's choice (notes/assumptions/20.md). -/
def Obligations.FrameLengthCountsTheDles : Prop :=
  ∀ p : Packet, (frame p).length = p.data.length + p.data.count 0x10#8 + 4

/-- R171: the code of each result. -/
def Obligations.StatusCodesOfTheResults : Prop :=
  (∀ p, DecResult.code (.ok p) = 0) ∧ DecResult.code .eos = 1 ∧
  (∀ e, DecResult.code (.srcErr e) = 2) ∧ DecResult.code .overflow = 5 ∧
  EncResult.code .ok = 0 ∧ (∀ e, EncResult.code (.snkErr e) = 3) ∧
  ∀ id, EncResult.code (.invalidId id) = 4

/-- R77: unstuffing a stuffed body gives the data back, whatever follows the terminator. -/
def Obligations.UnstuffInvertsStuff : Prop :=
  ∀ d r : List Byte,
    unstuff (stuff d ++ [0x10#8, 0x03#8] ++ r) = some (d, (stuff d).length + 2)

/-- R78: the scan ends at the least index `i >= 1` with DLE before it and an OTHER byte at it. -/
def Obligations.FrameStartIsTheFirstStartPair : Prop :=
  ∀ (s : List Byte) (i : Nat),
    frameStart s = some i ↔
      (1 ≤ i ∧ s[i - 1]? = some 0x10#8 ∧ (∃ b, s[i]? = some b ∧ b ≠ 0x10#8 ∧ b ≠ 0x03#8)) ∧
      ∀ j, 1 ≤ j → j < i →
        ¬ (s[j - 1]? = some 0x10#8 ∧ ∃ b, s[j]? = some b ∧ b ≠ 0x10#8 ∧ b ≠ 0x03#8)

/-- R143 to R145: the wire tokens of an encodable packet spell its frame: each token's bytes stand at
its index, and every index of the frame lies in exactly one token. -/
def Obligations.TokensSpellTheFrame : Prop :=
  ∀ p : Packet, p.id ≠ 0x10#8 → p.id ≠ 0x03#8 →
    (∀ k i, tokenAt p k = some i → ∃ r, (frame p).drop k = encode i ++ r) ∧
    (∀ n, n < (frame p).length →
      ∃! k, ∃ i, tokenAt p k = some i ∧ k ≤ n ∧ n < k + (encode i).length)

/-- R116: `DEC.dleOdd` is the parity of the source's counter `dleRun` after every body byte that does
not end the command, whether or not a literal ETX resets the counter (C2). -/
def Obligations.DleOddIsTheParityOfTheRun : Prop :=
  ∀ (s t : State) (b : Byte) (n : Nat) (resets : Bool),
    s.sched.next = some .dec → s.dec.phase = .body → s.dec.dleOdd = decide (n % 2 = 1) →
    s.decCh.src.next = some (.byte b) → step s = .next t → t.dec.phase = .body →
    t.dec.dleOdd = decide (dleRunNext resets n b % 2 = 1)

/-- R117, all four rows of its table: `n >= 1` DLE bytes read in `BODY` at even parity and then `x`. -/
def Obligations.DleRunStoresItsPairs : Prop :=
  ∀ (s : State) (n : Nat) (x id : Byte) (q : Source) (r : Feed Turn),
    1 ≤ n → x ≠ 0x10#8 → s.params.maxData = none →
    s.dec.phase = .body → s.dec.dleOdd = false → s.dec.id = some id →
    s.decCh.src.yields (List.replicate n (.byte 0x10#8) ++ [.byte x]) q →
    s.sched.yields (List.replicate (n + 1) .dec) r →
    steps (n + 1) s = .next
      (let data := s.dec.data ++ List.replicate (n / 2) 0x10#8
       if n % 2 = 1 ∧ x = 0x03#8 then
         { s with
           dec := Dec.idle
           decCh := { s.decCh with src := q, res := s.decCh.res ++ [.ok { id := id, data := data }] }
           sched := r }
       else
         { s with
           dec := { s.dec with data := data ++ [x] }
           decCh := { s.decCh with src := q }
           sched := r })

/-! ### Whole commands -/

/-- R118, for every `MAX_DATA`: one `DECODE` gives the result of the functional form and consumes what it
says: `n` bytes, and where they hold no whole frame the failing answer behind them (`Eos` as in the
functional form, or an `Err`, R113). -/
def Obligations.DecodeRefinesItsFunctionalForm : Prop :=
  ∀ (s : State) (bytes : List Byte) (res : DecResult) (n : Nat) (answers : List SrcAnswer)
    (delivered : DecResult) (q : Source) (r : Feed Turn),
    s.dec.phase = .idle → s.decCh.cmd = true →
    decodeStream s.params.maxData bytes = (res, n) →
    (res ≠ .eos ∧ answers = (bytes.take n).map .byte ∧ delivered = res) ∨
      (res = .eos ∧ answers = bytes.map .byte ++ [.eos] ∧ delivered = .eos) ∨
      (res = .eos ∧ ∃ e, answers = bytes.map .byte ++ [.err e] ∧ delivered = .srcErr e) →
    s.decCh.src.yields answers q → s.sched.yields (List.replicate (1 + answers.length) .dec) r →
    steps (1 + answers.length) s = .next
      { s with
        dec := Dec.idle
        decCh := { cmd := false, src := q, res := s.decCh.res ++ [delivered] }
        sched := r }

/-- R120, R121: a frame within `MAX_DATA`, behind bytes that hold no start pair and before any answers,
decodes to its packet and consumes exactly those bytes and the frame. -/
def Obligations.DecodeResynchronisesToTheFrame : Prop :=
  ∀ (s : State) (p : Packet) (g : List Byte) (q : Source) (r : Feed Turn) (n : Nat),
    p.id ≠ 0x10#8 → p.id ≠ 0x03#8 → withinMax s.params p.data.length = true →
    (∀ j, ¬ (g[j]? = some 0x10#8 ∧ ∃ b, g[j + 1]? = some b ∧ b ≠ 0x10#8 ∧ b ≠ 0x03#8)) →
    s.dec.phase = .idle → s.decCh.cmd = true →
    s.decCh.src.yields ((g ++ frame p).map .byte) q →
    n = 1 + g.length + (frame p).length → s.sched.yields (List.replicate n .dec) r →
    steps n s = .next
      { s with
        dec := Dec.idle
        decCh := { cmd := false, src := q, res := s.decCh.res ++ [.ok p] }
        sched := r }

/-- R114, R177, R211: a frame with more than `MAX_DATA` data bytes, behind bytes that hold no start pair,
ends `Fail(OVERFLOW)` at the byte whose store is refused, and what is behind it stays in the source. -/
def Obligations.FrameBeyondMaxDataOverflows : Prop :=
  ∀ (s : State) (p : Packet) (m : Nat) (d : Byte) (g read : List Byte) (q : Source) (r : Feed Turn),
    p.id ≠ 0x10#8 → p.id ≠ 0x03#8 → s.params.maxData = some m → p.data[m]? = some d →
    (∀ j, ¬ (g[j]? = some 0x10#8 ∧ ∃ b, g[j + 1]? = some b ∧ b ≠ 0x10#8 ∧ b ≠ 0x03#8)) →
    s.dec.phase = .idle → s.decCh.cmd = true →
    read = g ++ [0x10#8, p.id] ++ stuff (p.data.take (m + 1)) →
    s.decCh.src.yields (read.map .byte) q →
    s.sched.yields (List.replicate (1 + read.length) .dec) r →
    steps (1 + read.length) s = .next
      { s with
        dec := Dec.idle
        decCh := { cmd := false, src := q, res := s.decCh.res ++ [.overflow] }
        sched := r }

/-- R149, R150: `ENCODE(p)` of an encodable packet on a sink that takes every byte appends exactly
`Frame(p)` and ends `Ok`, after the acceptance and one `SNK.ACK` per byte. -/
def Obligations.EncodeWritesExactlyTheFrame : Prop :=
  ∀ (s : State) (p : Packet) (q : Feed SnkReply) (r : Feed Turn),
    p.id ≠ 0x10#8 → p.id ≠ 0x03#8 → s.enc.phase = .idle → s.encCh.cmd = some p →
    s.encCh.snk.replies.yields (List.replicate (frame p).length .ack) q →
    s.sched.yields (List.replicate (1 + (frame p).length) .enc) r →
    steps (1 + (frame p).length) s = .next
      { s with
        enc := Enc.idle
        encCh :=
          { cmd := none
            snk := { replies := q, taken := s.encCh.snk.taken ++ frame p }
            res := s.encCh.res ++ [.ok] }
        sched := r }

/-- R150: a write of `W[n]` that fails leaves `W[0..n)` or `W[0..n]` in the sink and ends
`Fail(STREAM_SNK_ERR, e)`, for a frame and for the prefix of a refused packet (R178). -/
def Obligations.FailedWriteLeavesAPartialFrame : Prop :=
  ∀ (s : State) (p : Packet) (w : List Byte) (n : Nat) (e : SnkErr) (landed : Bool)
    (q : Feed SnkReply) (r : Feed Turn),
    (p.id ≠ 0x10#8 ∧ p.id ≠ 0x03#8 ∧ w = frame p) ∨
      ((p.id = 0x10#8 ∨ p.id = 0x03#8) ∧ w = [0x10#8, p.id].take s.params.rejectLen.val) →
    s.enc.phase = .idle → s.encCh.cmd = some p → n < w.length →
    s.encCh.snk.replies.yields (List.replicate n .ack ++ [.err e landed]) q →
    s.sched.yields (List.replicate (n + 2) .enc) r →
    steps (n + 2) s = .next
      { s with
        enc := Enc.idle
        encCh :=
          { cmd := none
            snk :=
              { replies := q
                taken := s.encCh.snk.taken ++ w.take (if landed then n + 1 else n) }
            res := s.encCh.res ++ [.snkErr e] }
        sched := r }

/-- R142, R146, R150: a refused packet leaves `[DLE, id][0..REJECT_PREFIX_LEN)` in the sink, for every
value of the parameter, and ends `Fail(INVALID_PACKET_ID, id)`. -/
def Obligations.RefusedPacketLeavesOnlyItsStart : Prop :=
  ∀ (s : State) (p : Packet) (q : Feed SnkReply) (r : Feed Turn),
    p.id = 0x10#8 ∨ p.id = 0x03#8 → s.enc.phase = .idle → s.encCh.cmd = some p →
    s.encCh.snk.replies.yields (List.replicate s.params.rejectLen.val .ack) q →
    s.sched.yields (List.replicate (1 + s.params.rejectLen.val) .enc) r →
    steps (1 + s.params.rejectLen.val) s = .next
      { s with
        enc := Enc.idle
        encCh :=
          { cmd := none
            snk :=
              { replies := q
                taken := s.encCh.snk.taken ++ [0x10#8, p.id].take s.params.rejectLen.val }
            res := s.encCh.res ++ [.invalidId p.id] }
        sched := r }

/-- R121, R149, R64: through a loopback, the packet ENC writes is the packet DEC delivers, in the one
order of turns in which ENC writes the frame, the transport passes it and DEC reads it. The turns that pass
the bytes are the model's form of the caller's transport (notes/assumptions/12.md). -/
def Obligations.LoopbackReturnsThePacket : Prop :=
  ∀ (s : State) (p : Packet) (q : Feed SnkReply) (r : Feed Turn) (n : Nat),
    p.id ≠ 0x10#8 → p.id ≠ 0x03#8 → withinMax s.params p.data.length = true →
    s.enc.phase = .idle → s.encCh.cmd = some p → s.dec.phase = .idle → s.decCh.cmd = true →
    s.decCh.src.listed = [] → s.loop = some s.encCh.snk.taken.length →
    n = (frame p).length →
    s.encCh.snk.replies.yields (List.replicate n .ack) q →
    s.sched.yields (List.replicate (1 + n) .enc ++ List.replicate n .pass ++
      List.replicate (1 + n) .dec) r →
    steps ((1 + n) + n + (1 + n)) s = .next
      { s with
        dec := Dec.idle
        decCh := { s.decCh with cmd := false, res := s.decCh.res ++ [.ok p] }
        enc := Enc.idle
        encCh :=
          { cmd := none
            snk := { replies := q, taken := s.encCh.snk.taken ++ frame p }
            res := s.encCh.res ++ [.ok] }
        loop := some (s.encCh.snk.taken.length + n)
        sched := r }

/-- R57: a wire token is its byte transfers (the model's token turn, notes/assumptions/11.md): with no
command waiting, running the token row gives the state that as many turns of ENC as the token has bytes
give. -/
def Obligations.TokenRowRefinesItsTransfers : Prop :=
  ∀ (s : State) (i : Instr) (r : Feed Turn), s.inv = true → s.encCh.cmd = none →
    tokenDue s = some i → s.sched.yields (List.replicate (encode i).length .enc) r →
    exec i { s with sched := r } = steps (encode i).length s

/-! ### Waiting -/

/-- R119, R153, R188: a unit whose stream does not answer waits, however many turns it gets, and
nothing changes. -/
def Obligations.SilentStreamIsWaitedForForever : Prop :=
  (∀ (s : State) (n : Nat) (r : Feed Turn), s.dec.phase ≠ .idle → s.decCh.src.next = none →
    s.sched.yields (List.replicate n .dec) r →
    steps n s = .next { s with sched := r }) ∧
  (∀ (s : State) (n : Nat) (r : Feed Turn), s.enc.phase ≠ .idle → s.encCh.snk.next = none →
    s.sched.yields (List.replicate n .enc) r →
    steps n s = .next { s with sched := r })

/-- R118, R119: DEC reads on for as long as no terminator pair comes in a body, and no start pair in a
scan: on any bytes without one it still runs, has stored what the body stores and has given no result. The
last clause is the endless run: on an endless source whose bytes hold no whole frame, a `DECODE` whose
turns never stop never ends. -/
def Obligations.EndlessBodyIsReadForever : Prop :=
  (∀ (s : State) (bytes : List Byte) (q : Source) (r : Feed Turn),
    s.dec.phase = .body → s.dec.dleOdd = false → unstuff bytes = none →
    withinMax s.params (s.dec.data.length + (bodyStores bytes 0).length) = true →
    s.decCh.src.yields (bytes.map .byte) q → s.sched.yields (List.replicate bytes.length .dec) r →
    steps bytes.length s = .next
      { s with
        dec := { s.dec with
          data := s.dec.data ++ (bodyStores bytes 0).map Prod.fst
          dleOdd := decide (bytes.foldl (dleRunNext true) 0 % 2 = 1) }
        decCh := { s.decCh with src := q }
        sched := r }) ∧
  (∀ (s : State) (bytes : List Byte) (q : Source) (r : Feed Turn),
    s.dec.phase = .scan → s.dec.prevDLE = false → frameStart bytes = none →
    s.decCh.src.yields (bytes.map .byte) q → s.sched.yields (List.replicate bytes.length .dec) r →
    steps bytes.length s = .next
      { s with
        dec := { s.dec with prevDLE := decide (bytes.getLast? = some 0x10#8) }
        decCh := { s.decCh with src := q }
        sched := r }) ∧
  ∀ (s : State) (f : Nat → Byte), s.dec.phase = .idle → s.decCh.cmd = true →
    (∀ n, (decodeStream s.params.maxData ((List.range n).map f)).1 = .eos) →
    (∀ n, ∃ q, s.decCh.src.yields ((List.range n).map fun i => .byte (f i)) q) →
    (∀ n, ∃ r, s.sched.yields (List.replicate n .dec) r) →
    ∀ n, ∃ t, steps (n + 1) s = .next t ∧ t.dec.phase ≠ .idle ∧ t.decCh.res = s.decCh.res

/-! ### The whole machine -/

/-- R200, R202: after reset both units are `IDLE` with the values of R40 and wait for a command. -/
def Obligations.ResetLeavesBothUnitsIdle : Prop :=
  State.reset.dec = { phase := .idle, prevDLE := false, dleOdd := false, id := none, data := [] } ∧
  State.reset.enc = { phase := .idle, pkt := none, k := none } ∧
  State.reset.decCh.cmd = false ∧ State.reset.encCh.cmd = none ∧
  fetchDec State.reset = none ∧ fetchEnc State.reset = none

/-- R200, R201: reset may come in any state; it sets the registers of each unit it reaches, delivers no
result and leaves the other unit alone; a byte of a write or a read outstanding at it is in the sink or
not, is lost or not, as the environment says (notes/assumptions/8.md). A write whose byte is not in the
sink spends no reply, and a read with no answer yet loses nothing (the model's choices,
notes/assumptions/21.md, 22.md). A command still waiting on its channel stays there
(notes/assumptions/9.md). -/
def Obligations.ResetSetsTheUnitsItReaches : Prop :=
  ∀ (s : State) (u : Side) (d e readLost writeLanded : Bool) (rest : Prog),
    s.sched.next = some (.caller u) → s.prog.take u = some (.reset d e readLost writeLanded, rest) →
    step s = .next
      { s with
        dec := if d then Dec.idle else s.dec
        decCh := { s.decCh with
          src := if d = true ∧ readLost = true ∧ s.dec.phase ≠ .idle then s.decCh.src.pop
            else s.decCh.src }
        enc := if e then Enc.idle else s.enc
        encCh := { s.encCh with
          snk := match offered? s with
            | none => s.encCh.snk
            | some b =>
              if e = true ∧ writeLanded = true then
                { s.encCh.snk.pop with taken := s.encCh.snk.taken ++ [b] }
              else s.encCh.snk }
        prog := rest
        sched := s.sched.pop }

/-- R83, R89: a command the caller issues goes onto its unit's channel, or the caller waits while one
is there; a stream is bound to an idle unit that no command awaits; LOOP acts at once. That a blocked
action waits, that LOOP does not, and that either caller may take any action is the model's choice
(notes/assumptions/6.md). The model's choice too, where the spec is silent, are the operand of LOOP, its
count that restarts at a second LOOP, that a new sink ends the loop and that a new source keeps it
(notes/assumptions/12.md). -/
def Obligations.CallerActionsReachTheirChannel : Prop :=
  ∀ (s : State) (u : Side) (a : Act) (rest : Prog),
    s.sched.next = some (.caller u) → s.prog.take u = some (a, rest) →
    (a = .decode → step s = .next
      (if s.decCh.cmd then { s with sched := s.sched.pop }
       else { s with decCh := { s.decCh with cmd := true }, prog := rest, sched := s.sched.pop })) ∧
    (∀ p, a = .encode p → step s = .next
      (if s.encCh.cmd = none then
        { s with encCh := { s.encCh with cmd := some p }, prog := rest, sched := s.sched.pop }
       else { s with sched := s.sched.pop })) ∧
    (∀ q, a = .source q → s.dec.phase = .idle → s.decCh.cmd = false → step s = .next
      { s with decCh := { s.decCh with src := q }, prog := rest, sched := s.sched.pop }) ∧
    (∀ q, a = .sink q → s.enc.phase = .idle → s.encCh.cmd = none → step s = .next
      { s with encCh := { s.encCh with snk := q }, prog := rest, loop := none, sched := s.sched.pop }) ∧
    (∀ x, a = .loop x → step s = .next
      { s with
        decCh := { s.decCh with src := { s.decCh.src with after := x } }
        prog := rest
        loop := some s.encCh.snk.taken.length
        sched := s.sched.pop })

/-- The invariant holds at reset (R40, R200). -/
def Obligations.InvariantHoldsAtReset : Prop := State.reset.inv = true

/-- Every step keeps the invariant: which registers hold a value in which phase (R26, R33, R34, R40),
the bounds on `DEC.data` and `ENC.k` (R27, R34), and that every delivered packet is encodable (R30). -/
def Obligations.EveryStepKeepsTheInvariant : Prop :=
  ∀ s t : State, s.inv = true → step s = .next t → t.inv = true

/-- R81, R179, R65: in a state that meets the invariant no step faults, and the only stop is another
user of a stream during a command. -/
def Obligations.OnlySharingAStreamStopsTheMachine : Prop :=
  ∀ s : State, s.inv = true →
    (∀ f, step s ≠ .fault f) ∧ (∀ r, step s = .refused r → r.isSharing = true)

/-- R170: a step delivers at most one result on each channel, and with it the unit is `IDLE` with the
values of R40. -/
def Obligations.DeliveringAResultLeavesTheUnitIdle : Prop :=
  ∀ s t : State, step s = .next t →
    (t.decCh.res = s.decCh.res ∨
      ∃ x, t.decCh.res = s.decCh.res ++ [x] ∧ t.dec = Dec.idle) ∧
    (t.encCh.res = s.encCh.res ∨
      ∃ x, t.encCh.res = s.encCh.res ++ [x] ∧ t.enc = Enc.idle)

/-- R83, R210: a waiting command is never dropped: only its acceptance by an idle unit takes it off its
channel. That a reset leaves it there too is the model's reading (notes/assumptions/9.md). -/
def Obligations.WaitingCommandIsNeverDropped : Prop :=
  ∀ s t : State, step s = .next t →
    (s.decCh.cmd = true → t.decCh.cmd = true ∨ (s.dec.phase = .idle ∧ t.dec.phase = .scan)) ∧
    (∀ p, s.encCh.cmd = some p → t.encCh.cmd = some p ∨
      (s.enc.phase = .idle ∧
        (t.enc = { phase := .emit, pkt := some p, k := some 0 } ∨
         t.enc = { phase := .reject, pkt := some p, k := some 0 } ∨
         t.encCh.res = s.encCh.res ++ [.invalidId p.id])))

/-- R27: `DEC.data` is appended to, never overwritten and never shortened, while a body is read. -/
def Obligations.AccumulatorOnlyGrowsInABody : Prop :=
  ∀ s t : State, step s = .next t → s.dec.phase = .body → t.dec.phase = .body →
    ∃ l, t.dec.data = s.dec.data ++ l ∧ l.length ≤ 1

/-- R38: no step changes the build parameters. -/
def Obligations.BuildParametersNeverChange : Prop :=
  ∀ s t : State, step s = .next t → t.params = s.params

/-- R64: DEC and ENC share no state: from a state that meets the invariant, a step of the one and a
step of the other (by a byte or by a wire token) give the same next state in either order. -/
def Obligations.UnitStepsCommute : Prop :=
  ∀ (s : State) (e : Turn) (p q r : Feed Turn), s.inv = true → e = .enc ∨ e = .encToken →
    p.yields [.dec, e] r → q.yields [e, .dec] r →
    ∃ t, steps 2 { s with sched := p } = .next t ∧ steps 2 { s with sched := q } = .next t

/-- R180: in a block of codecs (the model's choice, notes/assumptions/14.md) a step of one changes no
other, and steps of two give the same block in
either order. -/
def Obligations.CodecsInABlockAreIndependent : Prop :=
  (∀ (us ts : List State) (n : Nat), stepAt n us = .next ts →
    ts.length = us.length ∧ ∀ m, m ≠ n → ts[m]? = us[m]?) ∧
  (∀ (us ts vs : List State) (m n : Nat), m ≠ n →
    stepAt m us = .next ts → stepAt n ts = .next vs →
    ∃ ws, stepAt n us = .next ws ∧ stepAt m ws = .next vs)

end
end

