-- ==== Sys2Proof/Laws/Bytes.lean ====
section
/-! SUPPORT. Byte classes, stuffing and frames. -/

namespace Sys2Proof.Machine

theorem isOther_iff {b : Byte} : isOther b = true ↔ b ≠ DLE ∧ b ≠ ETX := by simp [isOther]

theorem encodable_iff {p : Packet} : p.encodable = true ↔ p.id ≠ DLE ∧ p.id ≠ ETX := isOther_iff

theorem not_encodable_iff {p : Packet} : p.encodable = false ↔ p.id = DLE ∨ p.id = ETX := by
  rw [← Bool.not_eq_true, encodable_iff]; tauto

@[simp] theorem classOf_dle : classOf DLE = .dle := rfl

@[simp] theorem classOf_etx : classOf ETX = .etx := rfl

theorem classOf_other {b : Byte} (h : isOther b = true) : classOf b = .other := by
  obtain ⟨h1, h2⟩ := isOther_iff.1 h
  simp [classOf, h1, h2]

/-- The classes partition the bytes (R72). -/
theorem classOf_cases (b : Byte) :
    (b = DLE ∧ classOf b = .dle) ∨ (b = ETX ∧ classOf b = .etx) ∨
      (isOther b = true ∧ classOf b = .other) := by
  by_cases h1 : b = DLE
  · exact .inl ⟨h1, by simp [h1]⟩
  · by_cases h2 : b = ETX
    · exact .inr (.inl ⟨h2, by simp [h2]⟩)
    · have h := isOther_iff.2 ⟨h1, h2⟩
      exact .inr (.inr ⟨h, classOf_other h⟩)

@[simp] theorem stuffByte_dle : stuffByte DLE = [DLE, DLE] := rfl

theorem stuffByte_of_ne {d : Byte} (h : d ≠ DLE) : stuffByte d = [d] := by simp [stuffByte, h]

theorem stuffByte_length_pos (d : Byte) : 0 < (stuffByte d).length := by
  unfold stuffByte; split <;> simp

@[simp] theorem stuff_nil : stuff [] = [] := rfl

@[simp] theorem stuff_cons (d : Byte) (r : List Byte) : stuff (d :: r) = stuffByte d ++ stuff r := rfl

theorem stuff_append (a b : List Byte) : stuff (a ++ b) = stuff a ++ stuff b := by
  induction a with
  | nil => rfl
  | cons d r ih => simp [ih]

theorem stuff_take_succ {data : List Byte} {j : Nat} {d : Byte} (h : data[j]? = some d) :
    stuff (data.take (j + 1)) = stuff (data.take j) ++ stuffByte d := by
  rw [List.take_add_one, h, stuff_append]
  simp

@[simp] theorem frame_eq (p : Packet) :
    frame p = DLE :: p.id :: (stuff p.data ++ [DLE, ETX]) := rfl

@[simp] theorem wire_idle (c : Params) (p : Packet) : wire c .idle p = [] := rfl

theorem wire_emit (c : Params) (p : Packet) : wire c .emit p = frame p := rfl

theorem wire_reject (c : Params) (p : Packet) :
    wire c .reject p = [DLE, p.id].take c.rejectLen.val := rfl

end Sys2Proof.Machine
end

