-- ==== Sys2Proof/Laws/Feed.lean ====
section
/-! SUPPORT. Sequences: their next item, what is left, and the items they give. -/

namespace Sys2Proof.Machine

variable {α : Type} [Inhabited α]

@[simp] theorem Feed.next_cons (a : α) (l : List α) (x : Tail α) :
    Feed.next { listed := a :: l, after := x } = some a := rfl

@[simp] theorem Feed.next_stops : Feed.next { listed := ([] : List α), after := .stops } = none := rfl

@[simp] theorem Feed.next_repeats (a : α) (l : List α) :
    Feed.next { listed := [], after := .repeats a l } = some a := rfl

@[simp] theorem Feed.next_endless (n k : Nat) :
    Feed.next { listed := [], after := .endless n k } = some (freeItem α n k) := rfl

omit [Inhabited α] in
@[simp] theorem Feed.pop_cons (a : α) (l : List α) (x : Tail α) :
    Feed.pop { listed := a :: l, after := x } = { listed := l, after := x } := rfl

omit [Inhabited α] in
@[simp] theorem Feed.pop_nil (x : Tail α) :
    Feed.pop { listed := ([] : List α), after := x } = { listed := [], after := x.pop } := rfl

omit [Inhabited α] in
@[simp] theorem Tail.pop_stops : Tail.pop (.stops : Tail α) = .stops := rfl

omit [Inhabited α] in
@[simp] theorem Tail.pop_single (a : α) : Tail.pop (.repeats a []) = .repeats a [] := rfl

omit [Inhabited α] in
@[simp] theorem Tail.pop_repeats (a b : α) (l : List α) :
    Tail.pop (.repeats a (b :: l)) = .repeats b (l ++ [a]) := rfl

omit [Inhabited α] in
@[simp] theorem Tail.pop_endless (n k : Nat) :
    Tail.pop (.endless n k : Tail α) = .endless n (k + 1) := rfl

@[simp] theorem Feed.yields_nil {q r : Feed α} : q.yields [] r ↔ q = r := Iff.rfl

@[simp] theorem Feed.yields_cons {q r : Feed α} {a : α} {l : List α} :
    q.yields (a :: l) r ↔ q.next = some a ∧ q.pop.yields l r := Iff.rfl

/-- Giving one list and then another is giving the two joined. -/
theorem Feed.yields_append {q r : Feed α} {l m : List α} :
    q.yields (l ++ m) r ↔ ∃ p, q.yields l p ∧ p.yields m r := by
  induction l generalizing q with
  | nil => simp
  | cons a l ih => simp [ih, and_assoc]

/-- A sequence gives its listed items. -/
theorem Feed.yields_listed (l m : List α) (x : Tail α) :
    Feed.yields { listed := l ++ m, after := x } l { listed := m, after := x } := by
  induction l with
  | nil => rfl
  | cons a l ih => exact ⟨rfl, ih⟩

/-- A sequence that repeats one item gives it any number of times. -/
theorem Feed.yields_replicate (a : α) (n : Nat) :
    Feed.yields { listed := [], after := .repeats a [] } (List.replicate n a)
      { listed := [], after := .repeats a [] } := by
  induction n with
  | zero => rfl
  | succ n ih => exact ⟨rfl, ih⟩

/-- What is left after the items of a list is determined. -/
theorem Feed.yields_unique {q r r' : Feed α} {l : List α} (h : q.yields l r) (h' : q.yields l r') :
    r = r' := by
  induction l generalizing q with
  | nil => exact h.symm.trans h'
  | cons a l ih => exact ih h.2 h'.2

end Sys2Proof.Machine
end

