-- ==== Sys2Proof/Laws/State.lean ====
section
/-! SUPPORT. One lemma per field per update of `State` (Machine/Ops.lean), so that no proof unfolds an
update, and the laws of an update after an update. -/

namespace Sys2Proof.Machine

section
variable (s : State) (d : Dec)
@[simp] theorem State.setDec_dec : (s.setDec d).dec = d := rfl
@[simp] theorem State.setDec_decCh : (s.setDec d).decCh = s.decCh := rfl
@[simp] theorem State.setDec_enc : (s.setDec d).enc = s.enc := rfl
@[simp] theorem State.setDec_encCh : (s.setDec d).encCh = s.encCh := rfl
@[simp] theorem State.setDec_params : (s.setDec d).params = s.params := rfl
@[simp] theorem State.setDec_prog : (s.setDec d).prog = s.prog := rfl
@[simp] theorem State.setDec_loop : (s.setDec d).loop = s.loop := rfl
@[simp] theorem State.setDec_sched : (s.setDec d).sched = s.sched := rfl
@[simp] theorem State.setDec_setDec (x : Dec) : (s.setDec d).setDec x = s.setDec x := rfl
end

section
variable (s : State) (c : DecCh)
@[simp] theorem State.setDecCh_dec : (s.setDecCh c).dec = s.dec := rfl
@[simp] theorem State.setDecCh_decCh : (s.setDecCh c).decCh = c := rfl
@[simp] theorem State.setDecCh_enc : (s.setDecCh c).enc = s.enc := rfl
@[simp] theorem State.setDecCh_encCh : (s.setDecCh c).encCh = s.encCh := rfl
@[simp] theorem State.setDecCh_params : (s.setDecCh c).params = s.params := rfl
@[simp] theorem State.setDecCh_prog : (s.setDecCh c).prog = s.prog := rfl
@[simp] theorem State.setDecCh_loop : (s.setDecCh c).loop = s.loop := rfl
@[simp] theorem State.setDecCh_sched : (s.setDecCh c).sched = s.sched := rfl
@[simp] theorem State.setDecCh_setDecCh (x : DecCh) : (s.setDecCh c).setDecCh x = s.setDecCh x := rfl
end

section
variable (s : State) (u : Enc)
@[simp] theorem State.setEnc_dec : (s.setEnc u).dec = s.dec := rfl
@[simp] theorem State.setEnc_decCh : (s.setEnc u).decCh = s.decCh := rfl
@[simp] theorem State.setEnc_enc : (s.setEnc u).enc = u := rfl
@[simp] theorem State.setEnc_encCh : (s.setEnc u).encCh = s.encCh := rfl
@[simp] theorem State.setEnc_params : (s.setEnc u).params = s.params := rfl
@[simp] theorem State.setEnc_prog : (s.setEnc u).prog = s.prog := rfl
@[simp] theorem State.setEnc_loop : (s.setEnc u).loop = s.loop := rfl
@[simp] theorem State.setEnc_sched : (s.setEnc u).sched = s.sched := rfl
@[simp] theorem State.setEnc_setEnc (x : Enc) : (s.setEnc u).setEnc x = s.setEnc x := rfl
end

section
variable (s : State) (c : EncCh)
@[simp] theorem State.setEncCh_dec : (s.setEncCh c).dec = s.dec := rfl
@[simp] theorem State.setEncCh_decCh : (s.setEncCh c).decCh = s.decCh := rfl
@[simp] theorem State.setEncCh_enc : (s.setEncCh c).enc = s.enc := rfl
@[simp] theorem State.setEncCh_encCh : (s.setEncCh c).encCh = c := rfl
@[simp] theorem State.setEncCh_params : (s.setEncCh c).params = s.params := rfl
@[simp] theorem State.setEncCh_prog : (s.setEncCh c).prog = s.prog := rfl
@[simp] theorem State.setEncCh_loop : (s.setEncCh c).loop = s.loop := rfl
@[simp] theorem State.setEncCh_sched : (s.setEncCh c).sched = s.sched := rfl
@[simp] theorem State.setEncCh_setEncCh (x : EncCh) : (s.setEncCh c).setEncCh x = s.setEncCh x := rfl
end

section
variable (s : State) (p : Prog)
@[simp] theorem State.setProg_dec : (s.setProg p).dec = s.dec := rfl
@[simp] theorem State.setProg_decCh : (s.setProg p).decCh = s.decCh := rfl
@[simp] theorem State.setProg_enc : (s.setProg p).enc = s.enc := rfl
@[simp] theorem State.setProg_encCh : (s.setProg p).encCh = s.encCh := rfl
@[simp] theorem State.setProg_params : (s.setProg p).params = s.params := rfl
@[simp] theorem State.setProg_prog : (s.setProg p).prog = p := rfl
@[simp] theorem State.setProg_loop : (s.setProg p).loop = s.loop := rfl
@[simp] theorem State.setProg_sched : (s.setProg p).sched = s.sched := rfl
@[simp] theorem State.setProg_setProg (x : Prog) : (s.setProg p).setProg x = s.setProg x := rfl
end

section
variable (s : State) (l : Option Nat)
@[simp] theorem State.setLoop_dec : (s.setLoop l).dec = s.dec := rfl
@[simp] theorem State.setLoop_decCh : (s.setLoop l).decCh = s.decCh := rfl
@[simp] theorem State.setLoop_enc : (s.setLoop l).enc = s.enc := rfl
@[simp] theorem State.setLoop_encCh : (s.setLoop l).encCh = s.encCh := rfl
@[simp] theorem State.setLoop_params : (s.setLoop l).params = s.params := rfl
@[simp] theorem State.setLoop_prog : (s.setLoop l).prog = s.prog := rfl
@[simp] theorem State.setLoop_loop : (s.setLoop l).loop = l := rfl
@[simp] theorem State.setLoop_sched : (s.setLoop l).sched = s.sched := rfl
@[simp] theorem State.setLoop_setLoop (x : Option Nat) : (s.setLoop l).setLoop x = s.setLoop x := rfl
end

section
variable (s : State) (t : Feed Turn)
@[simp] theorem State.setSched_dec : (s.setSched t).dec = s.dec := rfl
@[simp] theorem State.setSched_decCh : (s.setSched t).decCh = s.decCh := rfl
@[simp] theorem State.setSched_enc : (s.setSched t).enc = s.enc := rfl
@[simp] theorem State.setSched_encCh : (s.setSched t).encCh = s.encCh := rfl
@[simp] theorem State.setSched_params : (s.setSched t).params = s.params := rfl
@[simp] theorem State.setSched_prog : (s.setSched t).prog = s.prog := rfl
@[simp] theorem State.setSched_loop : (s.setSched t).loop = s.loop := rfl
@[simp] theorem State.setSched_sched : (s.setSched t).sched = t := rfl
@[simp] theorem State.setSched_setSched (x : Feed Turn) : (s.setSched t).setSched x = s.setSched x := rfl
end

end Sys2Proof.Machine
end

