-- ==== Sys2Proof/Laws/Ops.lean ====
section
/-! SUPPORT. For each shared operation one lemma that says everything it can do, and the fields it
leaves alone. -/

namespace Sys2Proof.Machine

/-! ### Rows -/

theorem onRow_next {b : Bool} {o : Result} {t : State} :
    onRow b o = .next t ↔ b = true ∧ o = .next t := by
  cases b <;> simp [onRow]

@[simp] theorem onRow_true (o : Result) : onRow true o = o := rfl

@[simp] theorem onRow_false (o : Result) : onRow false o = .refused .rowNotSelected := rfl

theorem answered_iff {ph : DecPhase} {a : SrcAnswer} {s : State} :
    answered ph a s = true ↔ s.dec.phase = ph ∧ s.decCh.src.next = some a := by
  simp [answered]

/-! ### Streams -/

@[simp] theorem Sink.next_mk (q : Feed SnkReply) (w : List Byte) :
    Sink.next { replies := q, taken := w } = q.next := rfl

@[simp] theorem Sink.pop_mk (q : Feed SnkReply) (w : List Byte) :
    Sink.pop { replies := q, taken := w } = { replies := q.pop, taken := w } := rfl

@[simp] theorem Sink.put_mk (q : Feed SnkReply) (w : List Byte) (b : Byte) :
    Sink.put { replies := q, taken := w } b = { replies := q, taken := w ++ [b] } := rfl

@[simp] theorem Sink.pop_taken (q : Sink) : q.pop.taken = q.taken := rfl

@[simp] theorem Sink.put_taken (q : Sink) (b : Byte) : (q.put b).taken = q.taken ++ [b] := rfl

@[simp] theorem Sink.put_next (q : Sink) (b : Byte) : (q.put b).next = q.next := rfl

@[simp] theorem Sink.put_pop (q : Sink) (b : Byte) : (q.put b).pop = q.pop.put b := rfl

section
variable (s : State)

@[simp] theorem takeAnswer_dec : (takeAnswer s).dec = s.dec := rfl
@[simp] theorem takeAnswer_decCh :
    (takeAnswer s).decCh = { s.decCh with src := s.decCh.src.pop } := rfl
@[simp] theorem takeAnswer_enc : (takeAnswer s).enc = s.enc := rfl
@[simp] theorem takeAnswer_encCh : (takeAnswer s).encCh = s.encCh := rfl
@[simp] theorem takeAnswer_params : (takeAnswer s).params = s.params := rfl
@[simp] theorem takeAnswer_prog : (takeAnswer s).prog = s.prog := rfl
@[simp] theorem takeAnswer_loop : (takeAnswer s).loop = s.loop := rfl
@[simp] theorem takeAnswer_sched : (takeAnswer s).sched = s.sched := rfl

variable (put : Option Byte)

@[simp] theorem takeReply_dec : (takeReply put s).dec = s.dec := by cases put <;> rfl
@[simp] theorem takeReply_decCh : (takeReply put s).decCh = s.decCh := by cases put <;> rfl
@[simp] theorem takeReply_enc : (takeReply put s).enc = s.enc := by cases put <;> rfl
@[simp] theorem takeReply_encCh :
    (takeReply put s).encCh =
      { s.encCh with
        snk := { s.encCh.snk.pop with taken := s.encCh.snk.taken ++ put.toList } } := by
  cases put <;> simp [takeReply, Sink.put, Sink.pop]
@[simp] theorem takeReply_params : (takeReply put s).params = s.params := by cases put <;> rfl
@[simp] theorem takeReply_prog : (takeReply put s).prog = s.prog := by cases put <;> rfl
@[simp] theorem takeReply_loop : (takeReply put s).loop = s.loop := by cases put <;> rfl
@[simp] theorem takeReply_sched : (takeReply put s).sched = s.sched := by cases put <;> rfl

/-! ### Results -/

variable (x : DecResult)

@[simp] theorem respondDec_dec : (respondDec x s).dec = .idle := rfl
@[simp] theorem respondDec_decCh :
    (respondDec x s).decCh = { s.decCh with res := s.decCh.res ++ [x] } := rfl
@[simp] theorem respondDec_enc : (respondDec x s).enc = s.enc := rfl
@[simp] theorem respondDec_encCh : (respondDec x s).encCh = s.encCh := rfl
@[simp] theorem respondDec_params : (respondDec x s).params = s.params := rfl
@[simp] theorem respondDec_prog : (respondDec x s).prog = s.prog := rfl
@[simp] theorem respondDec_loop : (respondDec x s).loop = s.loop := rfl
@[simp] theorem respondDec_sched : (respondDec x s).sched = s.sched := rfl

variable (y : EncResult)

@[simp] theorem respondEnc_dec : (respondEnc y s).dec = s.dec := rfl
@[simp] theorem respondEnc_decCh : (respondEnc y s).decCh = s.decCh := rfl
@[simp] theorem respondEnc_enc : (respondEnc y s).enc = .idle := rfl
@[simp] theorem respondEnc_encCh :
    (respondEnc y s).encCh = { s.encCh with res := s.encCh.res ++ [y] } := rfl
@[simp] theorem respondEnc_params : (respondEnc y s).params = s.params := rfl
@[simp] theorem respondEnc_prog : (respondEnc y s).prog = s.prog := rfl
@[simp] theorem respondEnc_loop : (respondEnc y s).loop = s.loop := rfl
@[simp] theorem respondEnc_sched : (respondEnc y s).sched = s.sched := rfl

end

/-! ### The store -/

/-- `storeByte` either ends the command with Overflow or appends the byte. -/
theorem storeByte_cases (b : Byte) (s : State) :
    (s.params.maxData = some s.dec.data.length ∧ storeByte b s = respondDec .overflow s) ∨
    (s.params.maxData ≠ some s.dec.data.length ∧
      storeByte b s = s.setDec { s.dec with data := s.dec.data ++ [b] }) := by
  unfold storeByte
  split
  · exact .inl ⟨‹_›, rfl⟩
  · exact .inr ⟨‹_›, rfl⟩

section
variable (b : Byte) (s : State)

@[simp] theorem storeByte_enc : (storeByte b s).enc = s.enc := by unfold storeByte; split <;> rfl
@[simp] theorem storeByte_encCh : (storeByte b s).encCh = s.encCh := by
  unfold storeByte; split <;> rfl
@[simp] theorem storeByte_params : (storeByte b s).params = s.params := by
  unfold storeByte; split <;> rfl
@[simp] theorem storeByte_prog : (storeByte b s).prog = s.prog := by unfold storeByte; split <;> rfl
@[simp] theorem storeByte_loop : (storeByte b s).loop = s.loop := by unfold storeByte; split <;> rfl
@[simp] theorem storeByte_sched : (storeByte b s).sched = s.sched := by
  unfold storeByte; split <;> rfl

end

/-! ### The sink transfer -/

/-- `withOffer` answers next only with a latched packet, an index and a byte on offer. -/
theorem withOffer_next {s t : State} {f : Packet → Nat → Byte → Result} :
    withOffer s f = .next t ↔
      ∃ p k b, s.enc.pkt = some p ∧ s.enc.k = some k ∧
        (wire s.params s.enc.phase p)[k]? = some b ∧ f p k b = .next t := by
  unfold withOffer
  cases hp : s.enc.pkt with
  | none => simp
  | some p =>
    cases hk : s.enc.k with
    | none => simp
    | some k => cases hb : (wire s.params s.enc.phase p)[k]? <;> simp [hb]

/-- With a byte on offer `withOffer` runs its continuation. -/
theorem withOffer_of_offer {s : State} {f : Packet → Nat → Byte → Result} {p : Packet} {k : Nat}
    {b : Byte} (hp : s.enc.pkt = some p) (hk : s.enc.k = some k)
    (hb : (wire s.params s.enc.phase p)[k]? = some b) : withOffer s f = f p k b := by
  simp [withOffer, hp, hk, hb]

theorem sinkAck_next {s t : State} :
    sinkAck s = .next t ↔
      ∃ p k b, s.enc.pkt = some p ∧ s.enc.k = some k ∧
        (wire s.params s.enc.phase p)[k]? = some b ∧
        t = advance p k (takeReply (some b) s) := by
  rw [sinkAck, withOffer_next]
  simp only [Host.Outcome.next.injEq, eq_comm (a := t)]

theorem sinkErr_next {s t : State} {e : SnkErr} {landed : Bool} :
    sinkErr e landed s = .next t ↔
      ∃ p k b, s.enc.pkt = some p ∧ s.enc.k = some k ∧
        (wire s.params s.enc.phase p)[k]? = some b ∧
        t = respondEnc (.snkErr e) (takeReply (if landed then some b else none) s) := by
  rw [sinkErr, withOffer_next]
  simp only [Host.Outcome.next.injEq, eq_comm (a := t)]

/-- `advance` offers the next byte or delivers the command's result. -/
theorem advance_cases (p : Packet) (k : Nat) (s : State) :
    (k + 1 < (wire s.params s.enc.phase p).length ∧
      advance p k s = s.setEnc { s.enc with k := some (k + 1) }) ∨
    ((wire s.params s.enc.phase p).length ≤ k + 1 ∧ s.enc.phase = .emit ∧
      advance p k s = respondEnc .ok s) ∨
    ((wire s.params s.enc.phase p).length ≤ k + 1 ∧ s.enc.phase ≠ .emit ∧
      advance p k s = respondEnc (.invalidId p.id) s) := by
  unfold advance
  split
  · exact .inl ⟨‹_›, rfl⟩
  · split
    · exact .inr (.inl ⟨Nat.le_of_not_lt ‹_›, ‹_›, rfl⟩)
    · exact .inr (.inr ⟨Nat.le_of_not_lt ‹_›, ‹_›, rfl⟩)

section
variable (p : Packet) (k : Nat) (s : State)

@[simp] theorem advance_dec : (advance p k s).dec = s.dec := by
  unfold advance; split <;> [skip; split] <;> rfl
@[simp] theorem advance_decCh : (advance p k s).decCh = s.decCh := by
  unfold advance; split <;> [skip; split] <;> rfl
@[simp] theorem advance_snk : (advance p k s).encCh.snk = s.encCh.snk := by
  unfold advance; split <;> [skip; split] <;> rfl
@[simp] theorem advance_cmd : (advance p k s).encCh.cmd = s.encCh.cmd := by
  unfold advance; split <;> [skip; split] <;> rfl
@[simp] theorem advance_params : (advance p k s).params = s.params := by
  unfold advance; split <;> [skip; split] <;> rfl
@[simp] theorem advance_prog : (advance p k s).prog = s.prog := by
  unfold advance; split <;> [skip; split] <;> rfl
@[simp] theorem advance_loop : (advance p k s).loop = s.loop := by
  unfold advance; split <;> [skip; split] <;> rfl
@[simp] theorem advance_sched : (advance p k s).sched = s.sched := by
  unfold advance; split <;> [skip; split] <;> rfl

end

/-- What every transfer keeps, a run of transfers keeps. -/
theorem writeBytes_keeps {P : State → Prop}
    (hack : ∀ s t, P s → s.encCh.snk.next = some .ack → sinkAck s = .next t → P t)
    (herr : ∀ s t e l, P s → s.encCh.snk.next = some (.err e l) → sinkErr e l s = .next t → P t) :
    ∀ (n : Nat) (s t : State), P s → writeBytes n s = .next t → P t
  | 0, s, t, h, hw => by cases hw; exact h
  | n + 1, s, t, h, hw => by
    rw [writeBytes] at hw
    split at hw
    · cases hw; exact h
    · exact herr s t _ _ h ‹_› hw
    · split at hw
      · exact writeBytes_keeps hack herr n _ t (hack s _ h ‹_› ‹_›) hw
      · rename_i hno; exact absurd hw (hno t)

theorem writeToken_next {i : Instr} {s t : State} :
    writeToken i s = .next t ↔ tokenDue s = some i ∧ writeBytes (encode i).length s = .next t := by
  simp [writeToken, onRow_next]

/-! ### Reset -/

theorem resetDec_eq (readLost : Bool) (s : State) :
    resetDec readLost s =
      { s with
        dec := .idle
        decCh := { s.decCh with
          src := if readLost = true ∧ s.dec.phase ≠ .idle then s.decCh.src.pop
            else s.decCh.src } } := by
  unfold resetDec
  cases readLost <;> by_cases h : s.dec.phase = .idle <;> simp [h] <;> rfl

/-- With a byte on offer, a reset that lets it land appends it. -/
theorem resetEnc_of_offer {s : State} {b : Byte} (h : offered? s = some b) (writeLanded : Bool) :
    resetEnc writeLanded s =
      (if writeLanded then takeReply (some b) s else s).setEnc .idle := by
  simp [resetEnc, h]

/-- With no byte on offer, a reset touches no stream of ENC. -/
theorem resetEnc_of_no_offer {s : State} (h : offered? s = none) (writeLanded : Bool) :
    resetEnc writeLanded s = s.setEnc .idle := by
  simp [resetEnc, h]

end Sys2Proof.Machine
end

