-- ==== Sys2Proof/Laws/PerInstr.lean ====
section
/-! SUPPORT. Families of statements made per instruction. -/

namespace Sys2Proof.Laws

/-- The `match`, `mask` and `excludes` columns of spec/opcode_table.json; none where the row has no
byte. -/
def tableMatch : Instr → Option (Byte × Byte × List Byte)
  | .decode => none
  | .scanDle => some (0x10#8, 0xFF#8, [])
  | .scanEtx => some (0x03#8, 0xFF#8, [])
  | .scanSkip _ => some (0x00#8, 0x00#8, [0x10#8, 0x03#8])
  | .scanStart _ => some (0x00#8, 0x00#8, [0x10#8, 0x03#8])
  | .bodyDle => some (0x10#8, 0xFF#8, [])
  | .bodyEsc => some (0x10#8, 0xFF#8, [])
  | .bodyTerm => some (0x03#8, 0xFF#8, [])
  | .bodyEtxlit => some (0x03#8, 0xFF#8, [])
  | .bodyDrop _ => some (0x00#8, 0x00#8, [0x10#8, 0x03#8])
  | .bodyLit _ => some (0x00#8, 0x00#8, [0x10#8, 0x03#8])
  | .srcEos => none
  | .srcErr _ => none
  | .encode _ => none
  | .encodeReject _ => none
  | .snkAck => none
  | .snkErr _ => none
  | .encTokenStart _ => some (0x10#8, 0xFF#8, [])
  | .encTokenLit _ => some (0x00#8, 0x00#8, [0x10#8])
  | .encTokenEsc => some (0x10#8, 0xFF#8, [])
  | .encTokenTerm => some (0x10#8, 0xFF#8, [])

/-- A first byte is one the table's columns match. -/
def tableAccepts : Option (Byte × Byte × List Byte) → List Byte → Prop
  | none, l => l = []
  | some _, [] => False
  | some (m, k, x), b :: _ => b &&& k = m ∧ b ∉ x

/-- The first encoded byte of a well-formed row is one the table's row matches, and a row without a
byte in the table encodes to none. -/
def FirstByte.Statement (i : Instr) : Prop :=
  i.wf = true → tableAccepts (tableMatch i) (Sys2Proof.encode i)

/-- An OTHER byte matches the columns of a row of class OTHER. -/
theorem table_matches_other {b : Byte} (h : isOther b = true) (r : List Byte) :
    tableAccepts (some (0x00#8, 0x00#8, [0x10#8, 0x03#8])) (b :: r) := by
  obtain ⟨h1, h2⟩ := Machine.isOther_iff.1 h
  exact ⟨BitVec.and_zero, by simpa using ⟨h1, h2⟩⟩

/-- The first byte of a fixed row matches its columns. -/
theorem table_matches_fixed (m : Byte) (r : List Byte) : tableAccepts (some (m, 0xFF#8, [])) (m :: r) :=
  ⟨BitVec.and_allOnes, by simp⟩

theorem FirstByte.decode : FirstByte.Statement .decode := fun _ => rfl
theorem FirstByte.scanDle : FirstByte.Statement .scanDle := fun _ => table_matches_fixed _ _
theorem FirstByte.scanEtx : FirstByte.Statement .scanEtx := fun _ => table_matches_fixed _ _
theorem FirstByte.scanSkip (b : Byte) : FirstByte.Statement (.scanSkip b) := fun h => table_matches_other h _
theorem FirstByte.scanStart (b : Byte) : FirstByte.Statement (.scanStart b) :=
  fun h => table_matches_other h _
theorem FirstByte.bodyDle : FirstByte.Statement .bodyDle := fun _ => table_matches_fixed _ _
theorem FirstByte.bodyEsc : FirstByte.Statement .bodyEsc := fun _ => table_matches_fixed _ _
theorem FirstByte.bodyTerm : FirstByte.Statement .bodyTerm := fun _ => table_matches_fixed _ _
theorem FirstByte.bodyEtxlit : FirstByte.Statement .bodyEtxlit := fun _ => table_matches_fixed _ _
theorem FirstByte.bodyDrop (b : Byte) : FirstByte.Statement (.bodyDrop b) := fun h => table_matches_other h _
theorem FirstByte.bodyLit (b : Byte) : FirstByte.Statement (.bodyLit b) := fun h => table_matches_other h _
theorem FirstByte.srcEos : FirstByte.Statement .srcEos := fun _ => rfl
theorem FirstByte.srcErr (e : SrcErr) : FirstByte.Statement (.srcErr e) := fun _ => rfl
theorem FirstByte.encode (p : Packet) : FirstByte.Statement (.encode p) := fun _ => rfl
theorem FirstByte.encodeReject (p : Packet) : FirstByte.Statement (.encodeReject p) := fun _ => rfl
theorem FirstByte.snkAck : FirstByte.Statement .snkAck := fun _ => rfl
theorem FirstByte.snkErr (e : SnkErr) : FirstByte.Statement (.snkErr e) := fun _ => rfl
theorem FirstByte.encTokenStart (id : Byte) : FirstByte.Statement (.encTokenStart id) :=
  fun _ => table_matches_fixed _ _
theorem FirstByte.encTokenLit (d : Byte) : FirstByte.Statement (.encTokenLit d) := by
  intro h
  have h1 : d ≠ DLE := of_decide_eq_true h
  exact ⟨BitVec.and_zero, fun hm => h1 (List.mem_singleton.1 hm)⟩
theorem FirstByte.encTokenEsc : FirstByte.Statement .encTokenEsc := fun _ => table_matches_fixed _ _
theorem FirstByte.encTokenTerm : FirstByte.Statement .encTokenTerm := fun _ => table_matches_fixed _ _

end Sys2Proof.Laws
end

