-- ==== Sys2Proof/Laws/Step.lean ====
section
/-! SUPPORT. What a step can do, and runs of many steps. -/

namespace Sys2Proof.Machine

/-- A step takes the turn the schedule gives. -/
theorem step_turn {s : State} {t : Turn} (h : s.sched.next = some t) :
    step s = turn t (s.setSched s.sched.pop) := by
  rw [step, h]

/-- Where the schedule has stopped a step changes nothing. -/
theorem step_stopped {s : State} (h : s.sched.next = none) : step s = .next s := by
  rw [step, h]

/-- Every way a step answers next. -/
theorem step_next {s t : State} (h : step s = .next t) :
    (s.sched.next = none ∧ t = s) ∨
    ∃ k, s.sched.next = some k ∧ turn k (s.setSched s.sched.pop) = .next t := by
  cases hs : s.sched.next with
  | none => rw [step_stopped hs] at h; cases h; exact .inl ⟨rfl, rfl⟩
  | some k => rw [step_turn hs] at h; exact .inr ⟨k, rfl, h⟩

/-- Every way a turn answers next. -/
theorem turn_next {k : Turn} {s t : State} (h : turn k s = .next t) :
    (∃ u, k = .caller u ∧ callerTurn u s = .next t) ∨
    (k = .dec ∧ runRow (fetchDec s) s = .next t) ∨
    (k = .enc ∧ runRow (fetchEnc s) s = .next t) ∨
    (k = .encToken ∧ runRow (fetchToken s) s = .next t) ∨
    (k = .pass ∧ t = passByte s) := by
  cases k with
  | caller u => exact .inl ⟨u, rfl, h⟩
  | dec => exact .inr (.inl ⟨rfl, h⟩)
  | enc => exact .inr (.inr (.inl ⟨rfl, h⟩))
  | encToken => exact .inr (.inr (.inr (.inl ⟨rfl, h⟩)))
  | pass => cases h; exact .inr (.inr (.inr (.inr ⟨rfl, rfl⟩)))

/-- A unit's turn waits or runs the row it fetched. -/
theorem runRow_next {i : Option Instr} {s t : State} :
    runRow i s = .next t ↔ (i = none ∧ t = s) ∨ ∃ j, i = some j ∧ exec j s = .next t := by
  cases i with
  | none => simp [runRow, eq_comm]
  | some j => simp [runRow]

@[simp] theorem steps_zero (s : State) : steps 0 s = .next s := rfl

theorem steps_succ {s t : State} (n : Nat) (h : step s = .next t) :
    steps (n + 1) s = steps n t := by
  rw [steps, h]

theorem steps_fault {s : State} {e : Fault} (n : Nat) (h : step s = .fault e) :
    steps (n + 1) s = .fault e := by
  rw [steps, h]

theorem steps_refused {s : State} {e : Refusal} (n : Nat) (h : step s = .refused e) :
    steps (n + 1) s = .refused e := by
  rw [steps, h]

/-- A run that begins with a stop never answers next. -/
theorem steps_stop {s : State} (n : Nat) (t : State) (h : ∀ u, step s ≠ .next u) :
    steps (n + 1) s ≠ .next t := by
  rw [steps]
  cases hs : step s with
  | next u => exact absurd hs (h u)
  | fault f => simp
  | refused f => simp

/-- Runs one after another. -/
theorem steps_add {m : Nat} {s t : State} (h : steps m s = .next t) (n : Nat) :
    steps (m + n) s = steps n t := by
  induction m generalizing s with
  | zero => cases h; rw [Nat.zero_add]
  | succ m ih =>
    rw [Nat.add_right_comm]
    by_cases hs : ∃ u, step s = .next u
    · obtain ⟨u, hu⟩ := hs
      rw [steps_succ _ hu] at h ⊢
      exact ih h
    · exact absurd h (steps_stop m t (not_exists.1 hs))

/-- What every step keeps, a run keeps. -/
theorem steps_keeps {P : State → Prop} (hstep : ∀ s t, P s → step s = .next t → P t) :
    ∀ (n : Nat) (s t : State), P s → steps n s = .next t → P t
  | 0, s, t, h, hr => by cases hr; exact h
  | n + 1, s, t, h, hr => by
    by_cases hs : ∃ u, step s = .next u
    · obtain ⟨u, hu⟩ := hs
      rw [steps_succ _ hu] at hr
      exact steps_keeps hstep n u t (hstep s u h hu) hr
    · exact absurd hr (steps_stop n t (not_exists.1 hs))

/-- The host's runs are any runs that step as its step does. -/
theorem coreRun_unique (M : Host.Core) (f : Nat → M.State → Host.Outcome M.State M.Fault M.Refusal)
    (h0 : ∀ s, f 0 s = .next s)
    (hs : ∀ n s t, M.step s = .next t → f (n + 1) s = f n t)
    (hf : ∀ n s e, M.step s = .fault e → f (n + 1) s = .fault e)
    (hr : ∀ n s e, M.step s = .refused e → f (n + 1) s = .refused e) :
    ∀ n s, M.run n s = f n s
  | 0, s => (h0 s).symm
  | n + 1, s => by
    cases h : M.step s with
    | next t => simp [Host.Core.run, h, hs n s t h, coreRun_unique M f h0 hs hf hr n t]
    | fault e => simp [Host.Core.run, h, hf n s e h]
    | refused e => simp [Host.Core.run, h, hr n s e h]

/-- The host's runs of this machine are `steps`. -/
theorem core_run_eq_steps (n : Nat) (s : State) : Sys2Proof.core.run n s = steps n s :=
  coreRun_unique Sys2Proof.core steps (fun _ => rfl)
    (fun _ _ _ h => steps_succ _ h)
    (fun n _ _ h => steps_fault n h)
    (fun n _ _ h => steps_refused n h)
    n s

end Sys2Proof.Machine
end

