-- ==== Sys2Proof/Tests/Slice0.lean ====
section
/-! SUPPORT. Tests with results taken from the spec (the vectors V-… of spec/95_test_vectors.md and the
examples of the rules), and for every statement with hypotheses a witness that meets them. -/

namespace Sys2Proof.Tests
open Sys2Proof Sys2Proof.Machine

/-! ### Small states -/

/-- The sequence of the items of `l` and no other. -/
def only {α : Type} (l : List α) : Feed α := { listed := l, after := .stops }

/-- The items of `l`, and then `a` for ever. -/
def thenAll {α : Type} (l : List α) (a : α) : Feed α := { listed := l, after := .repeats a [] }

theorem only_yields {α : Type} [Inhabited α] (l : List α) : (only l).yields l Feed.empty := by
  simpa [only, Feed.empty] using Feed.yields_listed l [] .stops

theorem thenAll_yields {α : Type} [Inhabited α] (l : List α) (a : α) :
    (thenAll l a).yields l (thenAll [] a) := by
  simpa [thenAll] using Feed.yields_listed l [] (.repeats a [])

/-- DEC with registers `d` and a finite source, its turn first. -/
def decAt (d : Dec) (answers : List SrcAnswer) : State :=
  { State.reset with
    dec := d
    decCh := { cmd := false, src := thenAll answers .eos, res := [] }
    sched := only [.dec] }

/-- `SCAN` with a flag. -/
def scanning (prev : Bool) : Dec :=
  { phase := .scan, prevDLE := prev, dleOdd := false, id := none, data := [] }

/-- `BODY` of a frame with id 0x20. -/
def inBody (odd : Bool) (data : List Byte) : Dec :=
  { phase := .body, prevDLE := true, dleOdd := odd, id := some 0x20, data := data }

/-- `inBody`, the source answering `a`, with a capacity. -/
def bodyAt (odd : Bool) (data : List Byte) (a : SrcAnswer) (cap : Option Nat) : State :=
  { decAt (inBody odd data) [a] with params := { maxData := cap, rejectLen := 0 } }

/-- ENC with registers `u`, sink replies and prefix length, its turn first. -/
def encAt (u : Enc) (replies : List SnkReply) (rejectLen : Fin 3) : State :=
  { State.reset with
    enc := u
    encCh := { cmd := none, snk := { replies := only replies, taken := [] }, res := [] }
    params := { maxData := none, rejectLen := rejectLen }
    sched := only [.enc] }

/-- `EMIT` or `REJECT` at index `k`. -/
def writing (ph : EncPhase) (p : Packet) (k : Nat) : Enc := { phase := ph, pkt := some p, k := some k }

/-- The packet of V-B; its frame is `10 01 10 10 20 10 03`. -/
def pB : Packet := { id := 0x01, data := [0x10, 0x20] }

/-- `s` with another schedule. -/
def turns (s : State) (t : List Turn) : State := { s with sched := only t }

/-- `s` about to take the action `a` of a caller. -/
def calling (u : Side) (a : Act) (s : State) : State :=
  { s with prog := { dec := only [a], enc := only [a] }, sched := only [.caller u] }

/-- An idle DEC with a waiting `DECODE` on a finite source, and `n` turns. -/
def commanded (answers : List SrcAnswer) (cap : Option Nat) (n : Nat) : State :=
  { State.reset with
    decCh := { cmd := true, src := thenAll answers .eos, res := [] }
    params := { maxData := cap, rejectLen := 0 }
    sched := only (List.replicate n .dec) }

/-- An idle ENC with a waiting `ENCODE(p)`, and `n` turns. -/
def ordered (p : Packet) (replies : List SnkReply) (rejectLen : Fin 3) (n : Nat) : State :=
  { encAt Enc.idle replies rejectLen with
    encCh := { cmd := some p, snk := { replies := only replies, taken := [] }, res := [] }
    sched := only (List.replicate n .enc) }

/-- The next state of an outcome. -/
def nextOf : Result → Option State
  | .next t => some t
  | .fault _ => none
  | .refused _ => none

/-- The refusal of an outcome. -/
def refusalOf : Result → Option Refusal
  | .next _ => none
  | .fault _ => none
  | .refused r => some r

/-! ### Every check of WellFormed refuses an ill-formed term -/

theorem test_wf_skip_dle : (Instr.scanSkip 0x10).wf = false := by decide
theorem test_wf_start_etx : (Instr.scanStart 0x03).wf = false := by decide
theorem test_wf_drop_etx : (Instr.bodyDrop 0x03).wf = false := by decide
theorem test_wf_lit_dle : (Instr.bodyLit 0x10).wf = false := by decide
theorem test_wf_encode_reserved : (Instr.encode { id := 0x10, data := [] }).wf = false := by decide
theorem test_wf_reject_other : (Instr.encodeReject pB).wf = false := by decide
theorem test_wf_token_start_etx : (Instr.encTokenStart 0x03).wf = false := by decide
theorem test_wf_token_lit_dle : (Instr.encTokenLit 0x10).wf = false := by decide

/-! ### Each row is read from its event; bytes written out bit by bit (R72, R88) -/

theorem test_decode_decode : decodeRow .decIdle .cmdDecode = .row .decode := by decide
theorem test_decode_scan_dle :
    decodeRow (.scan true) (.src (.byte 0b00010000#8)) = .row .scanDle := by decide
theorem test_decode_scan_etx :
    decodeRow (.scan true) (.src (.byte 0b00000011#8)) = .row .scanEtx := by decide
theorem test_decode_scan_skip :
    decodeRow (.scan false) (.src (.byte 0b10001111#8)) = .row (.scanSkip 0x8F) := by decide
theorem test_decode_scan_start :
    decodeRow (.scan true) (.src (.byte 0b00000010#8)) = .row (.scanStart 0x02) := by decide
theorem test_decode_body_dle :
    decodeRow (.body false) (.src (.byte 0b00010000#8)) = .row .bodyDle := by decide
theorem test_decode_body_esc :
    decodeRow (.body true) (.src (.byte 0b00010000#8)) = .row .bodyEsc := by decide
theorem test_decode_body_term :
    decodeRow (.body true) (.src (.byte 0b00000011#8)) = .row .bodyTerm := by decide
theorem test_decode_body_etxlit :
    decodeRow (.body false) (.src (.byte 0b00000011#8)) = .row .bodyEtxlit := by decide
theorem test_decode_body_drop :
    decodeRow (.body true) (.src (.byte 0b01000001#8)) = .row (.bodyDrop 0x41) := by decide
theorem test_decode_body_lit :
    decodeRow (.body false) (.src (.byte 0b00010001#8)) = .row (.bodyLit 0x11) := by decide
theorem test_decode_src_eos : decodeRow (.body true) (.src .eos) = .row .srcEos := by decide
theorem test_decode_src_err :
    decodeRow (.scan false) (.src (.err ⟨7⟩)) = .row (.srcErr ⟨7⟩) := by decide
theorem test_decode_encode : decodeRow .encIdle (.cmdEncode pB) = .row (.encode pB) := by decide
theorem test_decode_reject :
    decodeRow .encIdle (.cmdEncode { id := 0x03, data := [] }) =
      .row (.encodeReject { id := 0x03, data := [] }) := by decide
theorem test_decode_snk_ack : decodeRow .reject (.snk .ack) = .row .snkAck := by decide
theorem test_decode_snk_err : decodeRow .emit (.snk (.err ⟨9⟩)) = .row (.snkErr ⟨9⟩) := by decide
theorem test_decode_token_start :
    decodeRow .tokenStart (.wire [0b00010000#8, 0b11111111#8]) = .row (.encTokenStart 0xFF) := by
  decide
theorem test_decode_token_lit :
    decodeRow .tokenBody (.wire [0b00000011#8]) = .row (.encTokenLit 0x03) := by decide
theorem test_decode_token_esc :
    decodeRow .tokenBody (.wire [0b00010000#8, 0b00010000#8]) = .row .encTokenEsc := by decide
theorem test_decode_token_term :
    decodeRow .tokenBody (.wire [0b00010000#8, 0b00000011#8]) = .row .encTokenTerm := by decide
theorem test_decode_no_command_on_a_stream :
    decodeRow .decIdle (.src .eos) = .rejected .notItsEvent := by decide
theorem test_decode_half_token :
    decodeRow .tokenBody (.wire [0x10]) = .rejected .truncatedToken := by decide
theorem test_decode_no_start_of_etx :
    decodeRow .tokenStart (.wire [0x10, 0x03]) = .rejected .noSuchToken := by decide
theorem test_table_word_start : decodeTableWord 16 0x8F10 = some (.encTokenStart 0x8F) := by decide

/-! ### One step of each row -/

/-- R101: the example of the rule. -/
theorem test_decode_row :
    (nextOf (exec .decode (decAt Dec.idle []))).map State.dec = some (scanning false) := by decide
/-- V-B1: a `DECODE` offered in `BODY` waits. -/
theorem test_decode_busy :
    (nextOf (exec .decode (decAt (inBody true []) []))).map (fun t => (t.dec, t.decCh.cmd)) =
      some (inBody true [], true) := by decide
/-- V-D6: a second DLE keeps `prevDLE`. -/
theorem test_scan_dle_row :
    (nextOf (step (decAt (scanning true) [.byte 0x10, .byte 0x8F]))).map
      (fun t => (t.dec.prevDLE, t.decCh.src.listed)) = some (true, [.byte 0x8F]) := by decide
/-- V-D5: `DLE, ETX` is discarded. -/
theorem test_scan_etx_row :
    (nextOf (step (decAt (scanning true) [.byte 0x03]))).map State.dec = some (scanning false) := by
  decide
/-- V-D7: the first byte is never the id. -/
theorem test_scan_skip_row :
    (nextOf (step (decAt (scanning false) [.byte 0x8F]))).map State.dec = some (scanning false) := by
  decide
/-- V-D1: id 0x00. -/
theorem test_scan_start_row :
    (nextOf (step (decAt (scanning true) [.byte 0x00]))).map
      (fun t => (t.dec.phase, t.dec.dleOdd, t.dec.id, t.dec.data)) =
      some (.body, false, some 0x00, []) := by decide
/-- R106: the example of the rule. -/
theorem test_body_dle_row :
    (nextOf (step (bodyAt false [0x20] (.byte 0x10) none))).map State.dec =
      some (inBody true [0x20]) := by decide
/-- R107: the example of the rule. -/
theorem test_body_esc_row :
    (nextOf (step (bodyAt true [] (.byte 0x10) none))).map State.dec =
      some (inBody false [0x10]) := by decide
/-- V-O1: the store of the escape pair is refused at capacity 0. -/
theorem test_body_esc_overflow :
    (nextOf (step (bodyAt true [] (.byte 0x10) (some 0)))).map (fun t => (t.dec, t.decCh.res)) =
      some (Dec.idle, [.overflow]) := by decide
/-- V-D15, and V-O3: exactly `MAX_DATA` bytes end `Ok`. -/
theorem test_body_term_row :
    (nextOf (step (bodyAt true [0x41] (.byte 0x03) (some 1)))).map
      (fun t => (t.dec, t.decCh.res)) =
      some (Dec.idle, [.ok { id := 0x20, data := [0x41] }]) := by decide
/-- R109: the example of the rule. -/
theorem test_body_etxlit_row :
    (nextOf (step (bodyAt false [0x20] (.byte 0x03) none))).map State.dec =
      some (inBody false [0x20, 0x03]) := by decide
/-- V-D11: the lone DLE is dropped. -/
theorem test_body_drop_row :
    (nextOf (step (bodyAt true [] (.byte 0x41) none))).map State.dec =
      some (inBody false [0x41]) := by decide
/-- V-D4: 0x0F and 0x11, next to DLE, are data. -/
theorem test_body_lit_row :
    (nextOf (step (bodyAt false [0x0F] (.byte 0x11) none))).map State.dec =
      some (inBody false [0x0F, 0x11]) := by decide
/-- V-F3: the withheld DLE is discarded with the frame. -/
theorem test_src_eos_row :
    (nextOf (step (decAt (inBody true [0x20]) []))).map (fun t => (t.dec, t.decCh.res)) =
      some (Dec.idle, [.eos]) := by decide
/-- V-F4: the error value is passed through. -/
theorem test_src_err_row :
    (nextOf (step (decAt (scanning true) [.err ⟨1⟩, .byte 0x10]))).map
      (fun t => (t.decCh.res, t.decCh.src.listed)) =
      some ([.srcErr ⟨1⟩], [.byte 0x10]) := by decide
/-- R141: the example of the rule. -/
theorem test_encode_row :
    (nextOf (exec (.encode pB) (encAt Enc.idle [] 0))).map (fun t => (t.enc, offered? t)) =
      some (writing .emit pB 0, some 0x10) := by decide
/-- V-R2: refused at acceptance, nothing written. -/
theorem test_reject_row :
    (nextOf (exec (.encodeReject { id := 0x03, data := [] }) (encAt Enc.idle [.ack] 0))).map
      (fun t => (t.enc, t.encCh.res, t.encCh.snk.taken)) =
      some (Enc.idle, [.invalidId 0x03], []) := by decide
/-- V-R5: with prefix length 2 both bytes are offered first. -/
theorem test_reject_prefix_row :
    (nextOf (exec (.encodeReject { id := 0x03, data := [] }) (encAt Enc.idle [] 2))).map
      (fun t => (t.enc.phase, offered? t, t.encCh.res)) = some (.reject, some 0x10, []) := by decide
/-- C6: after the increment the byte offered is `W[k]`, here the second of the frame of V-B. -/
theorem test_snk_ack_row :
    (nextOf (step (encAt (writing .emit pB 0) [.ack] 0))).map
      (fun t => (t.encCh.snk.taken, offered? t)) = some ([0x10], some 0x01) := by decide
/-- R146: the example of the rule. -/
theorem test_snk_ack_last :
    (nextOf (step (encAt (writing .emit { id := 0x8F, data := [] } 3) [.ack] 0))).map
      (fun t => (t.enc, t.encCh.snk.taken, t.encCh.res)) = some (Enc.idle, [0x03], [.ok]) := by decide
/-- V-S3, the byte not in the sink. -/
theorem test_snk_err_row :
    (nextOf (step (encAt (writing .emit pB 3) [.err ⟨2⟩ false] 0))).map
      (fun t => (t.enc, t.encCh.snk.taken, t.encCh.res)) = some (Enc.idle, [], [.snkErr ⟨2⟩]) := by
  decide
/-- V-R6, the byte in the sink. -/
theorem test_snk_err_reject :
    (nextOf (step (encAt (writing .reject { id := 0x03, data := [] } 1) [.err ⟨2⟩ true] 2))).map
      (fun t => (t.encCh.snk.taken, t.encCh.res)) = some ([0x03], [.snkErr ⟨2⟩]) := by decide
/-- R143 on the frame of V-B. -/
theorem test_token_start_row :
    (nextOf (exec (.encTokenStart 0x01) (encAt (writing .emit pB 0) [.ack, .ack] 0))).map
      (fun t => (t.enc.k, t.encCh.snk.taken)) = some (some 2, [0x10, 0x01]) := by decide
/-- R144 on the frame of V-B: data byte 0x20 at index 4. -/
theorem test_token_lit_row :
    (nextOf (exec (.encTokenLit 0x20) (encAt (writing .emit pB 4) [.ack] 0))).map
      (fun t => (t.enc.k, t.encCh.snk.taken)) = some (some 5, [0x20]) := by decide
/-- R144 on the frame of V-B: data byte 0x10 at index 2. -/
theorem test_token_esc_row :
    (nextOf (exec .encTokenEsc (encAt (writing .emit pB 2) [.ack, .ack] 0))).map
      (fun t => (t.enc.k, t.encCh.snk.taken)) = some (some 4, [0x10, 0x10]) := by decide
/-- R145 on the frame of V-B. -/
theorem test_token_term_row :
    (nextOf (exec .encTokenTerm (encAt (writing .emit pB 5) [.ack, .ack] 0))).map
      (fun t => (t.enc, t.encCh.snk.taken, t.encCh.res)) =
      some (Enc.idle, [0x10, 0x03], [.ok]) := by decide
/-- No token begins between the two bytes of the escape pair of V-B. -/
theorem test_token_inside_pair : tokenAt pB 3 = none := by decide

/-! ### Frames (V-B, V-E4, V-D7, V-D11, V-D17) -/

theorem test_frame_b : frame pB = [0x10, 0x01, 0x10, 0x10, 0x20, 0x10, 0x03] := by decide
theorem test_frame_etx :
    frame { id := 0x20, data := [0x03, 0x10, 0x03] } =
      [0x10, 0x20, 0x03, 0x10, 0x10, 0x03, 0x10, 0x03] := by decide
theorem test_no_start : decodeStream none [0x8F, 0x10, 0x03] = (.eos, 3) := by decide
theorem test_drop_stream :
    decodeStream none [0x10, 0x20, 0x10, 0x41, 0x10, 0x03] =
      (.ok { id := 0x20, data := [0x41] }, 6) := by decide
theorem test_even_run_stream :
    decodeStream none [0x10, 0x20, 0x10, 0x10, 0x10, 0x10, 0x03, 0x10, 0x03] =
      (.ok { id := 0x20, data := [0x10, 0x10, 0x03] }, 9) := by decide

/-! ### The caller -/

/-- V-B2: reset in `BODY`, the outstanding read having taken a byte that is lost. -/
theorem test_reset_body :
    (nextOf (step (calling .dec (.reset true true true false)
      (decAt (inBody false [0x20]) [.byte 0x10, .byte 0x03])))).map
      (fun t => (t.dec, t.decCh.res, t.decCh.src.listed)) =
      some (Dec.idle, [], [.byte 0x03]) := by decide
/-- V-B3: reset in `EMIT` at `k = 3`, the outstanding byte in the sink. -/
theorem test_reset_emit :
    (nextOf (step (calling .enc (.reset false true false true)
      (encAt (writing .emit pB 3) [.ack] 0)))).map
      (fun t => (t.enc, t.encCh.res, t.encCh.snk.taken)) = some (Enc.idle, [], [0x10]) := by decide
/-- R65: another reader of the source during a command. -/
theorem test_shared_source :
    refusalOf (step (calling .dec .otherReader (decAt (scanning false) []))) = some .sharedSource := by
  decide
/-- R65: another writer to the sink during a command. -/
theorem test_shared_sink :
    refusalOf (step (calling .enc (.otherWriter 0x41) (encAt (writing .emit pB 0) [] 0))) =
      some .sharedSink := by decide

/-! ### Witnesses: states and operands that meet the hypotheses of each statement -/

theorem witness_DecodeOfEncodedRowIsTheRow :
    ((Instr.scanStart 0x02).wf = true ∧ admits (.scan true) (.scanStart 0x02) = true ∧
      eventOf (.scanStart 0x02) = .src (.byte 0x02)) ∧
    ((Instr.encTokenStart 0xFF).wf = true ∧ admits .tokenStart (.encTokenStart 0xFF) = true ∧
      eventOf (.encTokenStart 0xFF) = .wire [0x10, 0xFF]) := by decide
theorem witness_EveryTransferSelectsExactlyOneRow :
    decodeRow .decIdle .cmdDecode = .row .decode ∧
    decodeRow (.scan false) (.src (.byte 0x04)) = .row (.scanSkip 0x04) ∧
    decodeRow .encIdle (.cmdEncode pB) = .row (.encode pB) ∧
    decodeRow .reject (.snk .ack) = .row .snkAck := by decide
theorem witness_StepRunsTheDecodedRow :
    (∃ s : State, s.sched.next = some .dec ∧ decEvent s = some (.src (.byte 0x0F)) ∧
      decodeRow s.dec.ctx (.src (.byte 0x0F)) = .row (.scanStart 0x0F)) ∧
    (∃ s : State, s.sched.next = some .enc ∧ encEvent s = some (.snk .ack) ∧
      decodeRow s.enc.ctx (.snk .ack) = .row .snkAck) ∧
    (∃ s : State, s.sched.next = some .encToken ∧ s.encCh.snk.next ≠ none ∧
      tokenDue s = some .encTokenTerm) ∧
    (∃ s : State, s.sched.next = some .dec ∧ decEvent s = none) ∧
    (∃ s : State, s.sched.next = some .encToken ∧ encEvent s = none) ∧
    ∃ s : State, s.sched.next = none :=
  ⟨⟨decAt (scanning true) [.byte 0x0F], by decide⟩, ⟨encAt (writing .emit pB 6) [.ack] 0, by decide⟩,
    ⟨turns (encAt (writing .emit pB 5) [.ack] 0) [.encToken], by decide⟩,
    ⟨decAt Dec.idle [], by decide⟩,
    ⟨turns (encAt (writing .emit pB 0) [] 0) [.encToken], by decide⟩, ⟨State.reset, by decide⟩⟩
theorem witness_PlacedTableWordRunsNext : decodeTableWord 8 0xFF = some (.scanSkip 0xFF) := by decide
theorem witness_AnswerRowRunsOnlyWhereSelected :
    (fetchDec (bodyAt false [] (.byte 0x41) none) = some (.bodyLit 0x41) ∧
      fetchDec (bodyAt true [] (.byte 0x41) none) ≠ some (.bodyLit 0x41)) ∧
    (fetchEnc (encAt (writing .emit pB 0) [.err ⟨2⟩ true] 0) = some (.snkErr ⟨2⟩) ∧
      (encAt (writing .emit pB 0) [.err ⟨2⟩ true] 0).inv = true ∧
      fetchEnc (encAt (writing .emit pB 0) [.ack] 0) ≠ some (.snkErr ⟨2⟩)) ∧
    (tokenDue (encAt (writing .emit pB 2) [.ack] 0) = some .encTokenEsc ∧
      (encAt (writing .emit pB 2) [.ack] 0).inv = true ∧
      tokenDue (encAt (writing .emit pB 3) [.ack] 0) ≠ some .encTokenEsc) ∧
    (Instr.encode pB).wf = true ∧ (Instr.encodeReject pB).wf = false := by decide
theorem witness_DecodeStartsAFreshScan :
    ∃ s : State, s.dec.phase = .idle ∧ s.decCh.cmd = true := ⟨commanded [] none 1, by decide⟩
theorem witness_ScanDleRemembersTheDle :
    ∃ s : State, s.dec.phase = .scan ∧ s.decCh.src.next = some (.byte 0x10#8) :=
  ⟨decAt (scanning true) [.byte 0x10], by decide⟩
theorem witness_ScanEtxForgetsTheDle :
    ∃ s : State, s.dec.phase = .scan ∧ s.decCh.src.next = some (.byte 0x03#8) :=
  ⟨decAt (scanning true) [.byte 0x03], by decide⟩
theorem witness_ScanSkipDiscardsTheByte :
    0x11#8 ≠ 0x10#8 ∧ 0x11#8 ≠ 0x03#8 ∧ ∃ s : State, s.dec.phase = .scan ∧
      s.dec.prevDLE = false ∧ s.decCh.src.next = some (.byte 0x11#8) :=
  ⟨by decide, by decide, decAt (scanning false) [.byte 0x11], by decide⟩
theorem witness_ScanStartAdoptsTheId :
    0x04#8 ≠ 0x10#8 ∧ 0x04#8 ≠ 0x03#8 ∧ ∃ s : State, s.dec.phase = .scan ∧
      s.dec.prevDLE = true ∧ s.decCh.src.next = some (.byte 0x04#8) :=
  ⟨by decide, by decide, decAt (scanning true) [.byte 0x04], by decide⟩
theorem witness_BodyDleIsWithheld :
    ∃ s : State, s.dec.phase = .body ∧ s.dec.dleOdd = false ∧
      s.decCh.src.next = some (.byte 0x10#8) :=
  ⟨bodyAt false [] (.byte 0x10) none, by decide⟩
theorem witness_BodyEscStoresOneDle :
    ∃ s : State, s.dec.phase = .body ∧ s.dec.dleOdd = true ∧
      s.decCh.src.next = some (.byte 0x10#8) :=
  ⟨bodyAt true [] (.byte 0x10) (some 0), by decide⟩
theorem witness_BodyTermDeliversThePacket :
    ∃ s : State, s.dec.phase = .body ∧ s.dec.dleOdd = true ∧
      s.dec.id = some 0x20 ∧ s.decCh.src.next = some (.byte 0x03#8) :=
  ⟨bodyAt true [] (.byte 0x03) (some 0), by decide⟩
theorem witness_BodyEtxAtEvenParityIsData :
    ∃ s : State, s.dec.phase = .body ∧ s.dec.dleOdd = false ∧
      s.decCh.src.next = some (.byte 0x03#8) :=
  ⟨bodyAt false [0x10] (.byte 0x03) (some 1), by decide⟩
theorem witness_BodyDropLosesTheWithheldDle :
    0x0F#8 ≠ 0x10#8 ∧ 0x0F#8 ≠ 0x03#8 ∧ ∃ s : State, s.dec.phase = .body ∧
      s.dec.dleOdd = true ∧ s.decCh.src.next = some (.byte 0x0F#8) :=
  ⟨by decide, by decide, bodyAt true [] (.byte 0x0F) none, by decide⟩
theorem witness_BodyLitStoresTheByte :
    0xFF#8 ≠ 0x10#8 ∧ 0xFF#8 ≠ 0x03#8 ∧ ∃ s : State, s.dec.phase = .body ∧
      s.dec.dleOdd = false ∧ s.decCh.src.next = some (.byte 0xFF#8) :=
  ⟨by decide, by decide, bodyAt false [] (.byte 0xFF) none, by decide⟩
theorem witness_SourceEndAbortsTheDecode :
    (∃ s : State, s.dec.phase = .scan ∧ s.decCh.src.next = some .eos) ∧
    ∃ s : State, s.dec.phase = .body ∧ s.decCh.src.next = some .eos :=
  ⟨⟨decAt (scanning false) [], by decide⟩, ⟨decAt (inBody true []) [], by decide⟩⟩
theorem witness_SourceErrorAbortsTheDecode :
    (∃ s : State, s.dec.phase = .scan ∧ s.decCh.src.next = some (.err ⟨1⟩)) ∧
    ∃ s : State, s.dec.phase = .body ∧ s.decCh.src.next = some (.err ⟨0⟩) :=
  ⟨⟨decAt (scanning true) [.err ⟨1⟩], by decide⟩, ⟨bodyAt true [] (.err ⟨0⟩) none, by decide⟩⟩
/-- The finite source of one byte, and the source that repeats a terminator pair for ever. -/
theorem witness_SourceAnswersFrontToBack :
    (∃ q : Source, q = { listed := [.byte 0x41], after := .repeats .eos [] }) ∧
    (∃ q : Source, q = { listed := [], after := .stops }) ∧
    (∃ q : Source, q = { listed := [], after := .repeats (.byte 0x10) [.byte 0x03] }) ∧
    ∃ q : Source, q = { listed := [], after := .endless 0 0 } := ⟨⟨_, rfl⟩, ⟨_, rfl⟩, ⟨_, rfl⟩, _, rfl⟩
/-- States no run reaches. -/
theorem witness_ReadingARegisterWithoutValueFaults :
    (∃ s : State, s.dec.phase = .body ∧ s.dec.dleOdd = true ∧ s.dec.id = none ∧
      s.decCh.src.next = some (.byte 0x03#8)) ∧
    (∃ s : State, s.enc.phase ≠ .idle ∧ s.enc.pkt = none ∧ s.encCh.snk.next = some .ack) ∧
    ∃ s : State, s.enc.phase ≠ .idle ∧ s.enc.pkt = some pB ∧ s.enc.k = none ∧
      s.encCh.snk.next = some (.err ⟨1⟩ true) :=
  ⟨⟨decAt { inBody true [] with id := none } [.byte 0x03], by decide⟩,
    ⟨encAt { phase := .reject, pkt := none, k := none } [.ack] 1, by decide⟩,
    ⟨encAt { phase := .emit, pkt := some pB, k := none } [.err ⟨1⟩ true] 0, by decide⟩⟩
theorem witness_EncodeLatchesThePacket :
    pB.id ≠ 0x10#8 ∧ pB.id ≠ 0x03#8 ∧
    ∃ s : State, s.enc.phase = .idle ∧ s.encCh.cmd = some pB :=
  ⟨by decide, by decide, ordered pB [] 0 1, by decide⟩
theorem witness_EncodeRejectRefusesAReservedId :
    (∃ s : State, s.enc.phase = .idle ∧ s.encCh.cmd = some { id := 0x10, data := [] } ∧
      s.params.rejectLen = 0) ∧
    ∃ s : State, s.enc.phase = .idle ∧ s.encCh.cmd = some { id := 0x03, data := [0x41] } ∧
      s.params.rejectLen = 1 :=
  ⟨⟨ordered { id := 0x10, data := [] } [] 0 1, by decide⟩,
    ⟨ordered { id := 0x03, data := [0x41] } [] 1 1, by decide⟩⟩
theorem witness_BusyUnitLeavesTheCommandWaiting :
    (∃ s : State, s.dec.phase ≠ .idle) ∧
    ∃ s : State, s.enc.phase ≠ .idle ∧ pB.id ≠ 0x10#8 ∧ pB.id ≠ 0x03#8 :=
  ⟨⟨decAt (inBody true []) [], by decide⟩, ⟨encAt (writing .emit pB 0) [] 0, by decide⟩⟩
/-- The last byte of a frame, and the only byte of a prefix of length 1. -/
theorem witness_SinkAckAdvancesTheFrame :
    (∃ s : State, s.enc.phase = .emit ∧ s.enc.pkt = some pB ∧ s.enc.k = some 6 ∧
      (frame pB)[6]? = some 0x03 ∧ s.encCh.snk.next = some .ack) ∧
    ∃ s : State, s.enc.phase = .reject ∧ s.enc.pkt = some { id := 0x03, data := [] } ∧
      s.enc.k = some 0 ∧ ([0x10#8, 0x03#8].take s.params.rejectLen.val)[0]? = some 0x10 ∧
      s.encCh.snk.next = some .ack :=
  ⟨⟨encAt (writing .emit pB 6) [.ack] 0, by decide⟩,
    ⟨encAt (writing .reject { id := 0x03, data := [] } 0) [.ack] 1, by decide⟩⟩
theorem witness_SinkErrorAbortsTheEncode :
    (∃ s : State, s.enc.phase = .emit ∧ s.enc.pkt = some pB ∧ s.enc.k = some 0 ∧
      (frame pB)[0]? = some 0x10 ∧ s.encCh.snk.next = some (.err ⟨2⟩ false)) ∧
    ∃ s : State, s.enc.phase = .reject ∧ s.enc.pkt = some { id := 0x03, data := [] } ∧
      s.enc.k = some 1 ∧ ([0x10#8, 0x03#8].take s.params.rejectLen.val)[1]? = some 0x03 ∧
      s.encCh.snk.next = some (.err ⟨2⟩ true) :=
  ⟨⟨encAt (writing .emit pB 0) [.err ⟨2⟩ false] 0, by decide⟩,
    ⟨encAt (writing .reject { id := 0x03, data := [] } 1) [.err ⟨2⟩ true] 2, by decide⟩⟩
theorem witness_StartTokenWritesDleAndId :
    pB.id ≠ 0x10#8 ∧ pB.id ≠ 0x03#8 ∧ ∃ s : State,
      s.enc = { phase := .emit, pkt := some pB, k := some 0 } ∧
      s.encCh.snk.next = some .ack ∧ s.encCh.snk.pop.next = some .ack :=
  ⟨by decide, by decide, encAt (writing .emit pB 0) [.ack, .ack] 0, by decide⟩
theorem witness_LiteralTokenWritesTheByte :
    pB.data[1]? = some 0x20 ∧ 0x20#8 ≠ 0x10#8 ∧ ∃ s : State,
      s.enc = { phase := .emit, pkt := some pB, k := some (2 + (stuff (pB.data.take 1)).length) } ∧
      s.encCh.snk.next = some .ack :=
  ⟨by decide, by decide, encAt (writing .emit pB 4) [.ack] 0, by decide⟩
theorem witness_EscapeTokenWritesTwoDles :
    pB.data[0]? = some 0x10#8 ∧ ∃ s : State,
      s.enc = { phase := .emit, pkt := some pB, k := some (2 + (stuff (pB.data.take 0)).length) } ∧
      s.encCh.snk.next = some .ack ∧ s.encCh.snk.pop.next = some .ack :=
  ⟨by decide, encAt (writing .emit pB 2) [.ack, .ack] 0, by decide⟩
theorem witness_TerminatorTokenEndsTheFrame :
    ∃ s : State, s.enc = { phase := .emit, pkt := some pB, k := some (2 + (stuff pB.data).length) } ∧
      s.encCh.snk.next = some .ack ∧ s.encCh.snk.pop.next = some .ack :=
  ⟨encAt (writing .emit pB 5) [.ack, .ack] 0, by decide⟩
theorem witness_TokensSpellTheFrame :
    pB.id ≠ 0x10#8 ∧ pB.id ≠ 0x03#8 ∧ tokenAt pB 0 = some (.encTokenStart 0x01) ∧
    tokenAt pB 5 = some .encTokenTerm ∧ 6 < (frame pB).length := by decide
/-- An ETX at an even count of 2, under both readings. -/
theorem witness_DleOddIsTheParityOfTheRun :
    (bodyAt false [0x10] (.byte 0x03) none).sched.next = some .dec ∧
    (inBody false [0x10]).dleOdd = decide (2 % 2 = 1) ∧
    (bodyAt false [0x10] (.byte 0x03) none).decCh.src.next = some (.byte 0x03) ∧
    (nextOf (step (bodyAt false [0x10] (.byte 0x03) none))).map (fun t => t.dec.phase) =
      some .body ∧
    dleRunNext true 2 0x03 = 0 ∧ dleRunNext false 2 0x03 = 2 := by decide
/-- V-D15 (odd, ETX) and V-D18 (even, OTHER). -/
theorem witness_DleRunStoresItsPairs :
    (∃ (s : State) (q : Source), s.params.maxData = none ∧ s.dec.phase = .body ∧
      s.dec.dleOdd = false ∧ s.dec.id = some 0x20 ∧
      s.decCh.src.yields (List.replicate 1 (.byte 0x10#8) ++ [.byte 0x03]) q ∧
      s.sched.yields (List.replicate (1 + 1) .dec) Feed.empty) ∧
    ∃ (s : State) (q : Source), s.params.maxData = none ∧ s.dec.phase = .body ∧
      s.dec.dleOdd = false ∧ s.dec.id = some 0x20 ∧
      s.decCh.src.yields (List.replicate 2 (.byte 0x10#8) ++ [.byte 0x41]) q ∧
      s.sched.yields (List.replicate (2 + 1) .dec) Feed.empty :=
  ⟨⟨turns (decAt (inBody false []) [.byte 0x10, .byte 0x03]) [.dec, .dec], _, rfl, rfl, rfl, rfl,
      thenAll_yields _ _, only_yields _⟩,
    ⟨turns (decAt (inBody false []) [.byte 0x10, .byte 0x10, .byte 0x41]) [.dec, .dec, .dec], _,
      rfl, rfl, rfl, rfl, thenAll_yields _ _, only_yields _⟩⟩

/-- The source that repeats the empty frame of id 0x00 and the turns of DEC, both for ever. -/
def frames : State :=
  { commanded [] none 0 with
    decCh :=
      { cmd := true
        src := { listed := [], after := .repeats (.byte 0x10) [.byte 0x00, .byte 0x10, .byte 0x03] }
        res := [] }
    sched := thenAll [] .dec }
/-- V-D1 on an endless source, V-O1 (overflow), V-D7 (`Eos`) and V-F4 (`Err`). -/
theorem witness_DecodeRefinesItsFunctionalForm :
    (decodeStream none [0x10, 0x00, 0x10, 0x03] = (.ok { id := 0x00, data := [] }, 4) ∧
      frames.params.maxData = none ∧ frames.dec.phase = .idle ∧ frames.decCh.cmd = true ∧
      frames.decCh.src.yields ([0x10, 0x00, 0x10, 0x03].map .byte) frames.decCh.src ∧
      frames.sched.yields (List.replicate (1 + 4) .dec) frames.sched) ∧
    (decodeStream (some 0) [0x10, 0x01, 0x10, 0x10, 0x20] = (.overflow, 4) ∧
      ∃ (s : State) (q : Source) (r : Feed Turn), s.params.maxData = some 0 ∧ s.dec.phase = .idle ∧
        s.decCh.cmd = true ∧ s.decCh.src.yields ([0x10, 0x01, 0x10, 0x10].map .byte) q ∧
        s.sched.yields (List.replicate (1 + 4) .dec) r) ∧
    (decodeStream none [0x8F, 0x10, 0x03] = (.eos, 3) ∧
      ∃ (s : State) (q : Source) (r : Feed Turn), s.params.maxData = none ∧ s.dec.phase = .idle ∧
        s.decCh.cmd = true ∧ s.decCh.src.yields ([0x8F, 0x10, 0x03].map .byte ++ [.eos]) q ∧
        s.sched.yields (List.replicate (1 + 4) .dec) r) ∧
    (decodeStream none [0x10] = (.eos, 1) ∧
      ∃ (s : State) (q : Source) (r : Feed Turn), s.params.maxData = none ∧ s.dec.phase = .idle ∧
        s.decCh.cmd = true ∧ s.decCh.src.yields ([0x10].map .byte ++ [.err ⟨1⟩]) q ∧
        s.sched.yields (List.replicate (1 + 2) .dec) r) :=
  ⟨⟨by decide, rfl, rfl, rfl, by simp [frames],
      by simp [frames, thenAll]⟩,
    ⟨by decide, commanded ([0x10, 0x01, 0x10, 0x10].map .byte) (some 0) 5, _, _, rfl, rfl, rfl,
      thenAll_yields _ _, only_yields _⟩,
    ⟨by decide, commanded [.byte 0x8F, .byte 0x10, .byte 0x03, .eos] none 5, _, _, rfl, rfl, rfl,
      thenAll_yields _ _, only_yields _⟩,
    ⟨by decide, commanded [.byte 0x10, .err ⟨1⟩] none 3, _, _, rfl, rfl, rfl,
      thenAll_yields _ _, only_yields _⟩⟩
theorem no_start_pair (j : Nat) :
    ¬ ([0x55#8, 0x10#8][j]? = some 0x10#8 ∧
      ∃ b, [0x55#8, 0x10#8][j + 1]? = some b ∧ b ≠ 0x10#8 ∧ b ≠ 0x03#8) := by
  rcases j with _ | _ | j <;> simp
/-- Garbage that ends in DLE (`no_start_pair`), then the frame of V-O4 with its data exactly at
capacity 0. -/
theorem witness_DecodeResynchronisesToTheFrame :
    ∃ (s : State) (q : Source) (r : Feed Turn),
      withinMax s.params ([] : List Byte).length = true ∧ s.dec.phase = .idle ∧ s.decCh.cmd = true ∧
      s.decCh.src.yields (([0x55, 0x10] ++ frame { id := 0x00, data := [] }).map .byte) q ∧
      s.sched.yields
        (List.replicate (1 + [0x55#8, 0x10#8].length + (frame { id := 0x00, data := [] }).length) .dec)
        r :=
  ⟨commanded ([0x55, 0x10, 0x10, 0x00, 0x10, 0x03].map .byte) (some 0) 7, _, _, rfl, rfl, rfl,
    thenAll_yields _ _, only_yields _⟩
/-- V-O1, and V-O2 behind the bytes of `no_start_pair`. -/
theorem witness_FrameBeyondMaxDataOverflows :
    (pB.data[0]? = some 0x10 ∧
      [] ++ [0x10, pB.id] ++ stuff (pB.data.take (0 + 1)) = [0x10, 0x01, 0x10, 0x10] ∧
      ∃ (s : State) (q : Source) (r : Feed Turn), s.params.maxData = some 0 ∧ s.dec.phase = .idle ∧
        s.decCh.cmd = true ∧ s.decCh.src.yields (([0x10, 0x01, 0x10, 0x10] : List Byte).map .byte) q ∧
        s.sched.yields (List.replicate (1 + 4) .dec) r) ∧
    (pB.data[1]? = some 0x20 ∧
      [0x55, 0x10] ++ [0x10, pB.id] ++ stuff (pB.data.take (1 + 1)) =
        [0x55, 0x10, 0x10, 0x01, 0x10, 0x10, 0x20] ∧
      ∃ (s : State) (q : Source) (r : Feed Turn), s.params.maxData = some 1 ∧ s.dec.phase = .idle ∧
        s.decCh.cmd = true ∧
        s.decCh.src.yields (([0x55, 0x10, 0x10, 0x01, 0x10, 0x10, 0x20] : List Byte).map .byte) q ∧
        s.sched.yields (List.replicate (1 + 7) .dec) r) :=
  ⟨⟨by decide, by decide, commanded ([0x10, 0x01, 0x10, 0x10].map .byte) (some 0) 5, _, _, rfl, rfl,
      rfl, thenAll_yields _ _, only_yields _⟩,
    ⟨by decide, by decide,
      commanded ([0x55, 0x10, 0x10, 0x01, 0x10, 0x10, 0x20].map .byte) (some 1) 8, _, _, rfl, rfl, rfl,
      thenAll_yields _ _, only_yields _⟩⟩

/-- `s` with a sink that answers `Ack` to every write (the `SINK` of R89). -/
def acking (s : State) : State :=
  { s with encCh := { s.encCh with snk := { replies := thenAll [] .ack, taken := [] } } }
/-- On the sink that acknowledges every write, and on one of seven replies. -/
theorem witness_EncodeWritesExactlyTheFrame :
    (∃ (s : State) (q : Feed SnkReply) (r : Feed Turn), s.enc.phase = .idle ∧
      s.encCh.cmd = some pB ∧ s.encCh.snk.replies = { listed := [], after := .repeats .ack [] } ∧
      s.encCh.snk.replies.yields (List.replicate (frame pB).length .ack) q ∧
      s.sched.yields (List.replicate (1 + (frame pB).length) .enc) r) ∧
    ∃ (s : State) (q : Feed SnkReply) (r : Feed Turn), s.enc.phase = .idle ∧
      s.encCh.cmd = some pB ∧
      s.encCh.snk.replies.yields (List.replicate (frame pB).length .ack) q ∧
      s.sched.yields (List.replicate (1 + (frame pB).length) .enc) r :=
  ⟨⟨acking (ordered pB [] 0 8), _, _, rfl, rfl, rfl, Feed.yields_replicate _ _, only_yields _⟩,
    ⟨ordered pB (List.replicate 7 .ack) 0 8, _, _, rfl, rfl, only_yields _, only_yields _⟩⟩
/-- V-S0, V-S6, and V-R6 for the prefix of a refused packet. -/
theorem witness_FailedWriteLeavesAPartialFrame :
    (0 < (frame pB).length ∧ ∃ (s : State) (q : Feed SnkReply) (r : Feed Turn),
      s.enc.phase = .idle ∧ s.encCh.cmd = some pB ∧
      s.encCh.snk.replies.yields (List.replicate 0 .ack ++ [.err ⟨2⟩ true]) q ∧
      s.sched.yields (List.replicate (0 + 2) .enc) r) ∧
    (6 < (frame pB).length ∧ ∃ (s : State) (q : Feed SnkReply) (r : Feed Turn),
      s.enc.phase = .idle ∧ s.encCh.cmd = some pB ∧
      s.encCh.snk.replies.yields (List.replicate 6 .ack ++ [.err ⟨2⟩ false]) q ∧
      s.sched.yields (List.replicate (6 + 2) .enc) r) ∧
    ∃ (s : State) (q : Feed SnkReply) (r : Feed Turn),
      1 < ([0x10#8, 0x03#8].take s.params.rejectLen.val).length ∧ s.enc.phase = .idle ∧
      s.encCh.cmd = some { id := 0x03, data := [] } ∧
      s.encCh.snk.replies.yields (List.replicate 1 .ack ++ [.err ⟨2⟩ true]) q ∧
      s.sched.yields (List.replicate (1 + 2) .enc) r :=
  ⟨⟨by decide, ordered pB [.err ⟨2⟩ true] 0 2, _, _, rfl, rfl, only_yields _, only_yields _⟩,
    ⟨by decide, ordered pB [.ack, .ack, .ack, .ack, .ack, .ack, .err ⟨2⟩ false] 0 8, _, _, rfl, rfl,
      only_yields _, only_yields _⟩,
    ⟨ordered { id := 0x03, data := [] } [.ack, .err ⟨2⟩ true] 2 3, _, _, by decide, rfl, rfl,
      only_yields _, only_yields _⟩⟩
/-- V-R1, and V-R5 on the sink that acknowledges every write. -/
theorem witness_RefusedPacketLeavesOnlyItsStart :
    (∃ (s : State) (q : Feed SnkReply) (r : Feed Turn), s.params.rejectLen = 0 ∧
      s.enc.phase = .idle ∧ s.encCh.cmd = some { id := 0x10, data := [] } ∧
      s.encCh.snk.replies.yields (List.replicate s.params.rejectLen.val .ack) q ∧
      s.sched.yields (List.replicate (1 + s.params.rejectLen.val) .enc) r) ∧
    ∃ (s : State) (q : Feed SnkReply) (r : Feed Turn), s.params.rejectLen = 2 ∧
      s.enc.phase = .idle ∧ s.encCh.cmd = some { id := 0x03, data := [] } ∧
      s.encCh.snk.replies.yields (List.replicate s.params.rejectLen.val .ack) q ∧
      s.sched.yields (List.replicate (1 + s.params.rejectLen.val) .enc) r :=
  ⟨⟨ordered { id := 0x10, data := [] } [] 0 1, _, _, rfl, rfl, rfl, only_yields _, only_yields _⟩,
    ⟨acking (ordered { id := 0x03, data := [] } [] 2 3), _, _, rfl, rfl, rfl,
      Feed.yields_replicate _ _, only_yields _⟩⟩
/-- Both units commanded and joined by a loopback, with the turns of the statement. -/
def looped : State :=
  { acking (ordered { id := 0x00, data := [] } [] 0 0) with
    decCh := { cmd := true, src := thenAll [] .eos, res := [] }
    loop := some 0
    sched := only (List.replicate 5 .enc ++ List.replicate 4 .pass ++ List.replicate 5 .dec) }
theorem witness_LoopbackReturnsThePacket :
    (looped.enc.phase = .idle ∧ looped.encCh.cmd = some { id := 0x00, data := [] } ∧
      looped.dec.phase = .idle ∧ looped.decCh.cmd = true ∧ looped.decCh.src.listed = [] ∧
      looped.loop = some looped.encCh.snk.taken.length ∧
      withinMax looped.params ([] : List Byte).length = true ∧
      (frame { id := 0x00, data := [] }).length = 4) ∧
    ∃ (q : Feed SnkReply) (r : Feed Turn),
      looped.encCh.snk.replies.yields (List.replicate 4 .ack) q ∧
      looped.sched.yields (List.replicate (1 + 4) .enc ++ List.replicate 4 .pass ++
        List.replicate (1 + 4) .dec) r :=
  ⟨by decide, _, _, Feed.yields_replicate _ _, only_yields _⟩
theorem witness_TokenRowRefinesItsTransfers :
    ∃ (s : State) (r : Feed Turn), s.inv = true ∧ s.encCh.cmd = none ∧
      tokenDue s = some .encTokenTerm ∧
      s.sched.yields (List.replicate (encode .encTokenTerm).length .enc) r :=
  ⟨turns (encAt (writing .emit pB 5) [.ack, .ack] 0) [.enc, .enc], _, by decide, rfl, by decide,
    only_yields _⟩

/-- V-F6: DEC in `SCAN` on a source that never answers, its turn for ever. -/
def unanswered : State :=
  { decAt (scanning false) [] with
    decCh := { cmd := false, src := Source.unattached, res := [] }
    sched := thenAll [] .dec }
theorem witness_SilentStreamIsWaitedForForever :
    (unanswered.dec.phase ≠ .idle ∧ unanswered.decCh.src.next = none ∧
      ∀ n, ∃ r, unanswered.sched.yields (List.replicate n .dec) r) ∧
    ∃ (s : State) (r : Feed Turn), s.enc.phase ≠ .idle ∧ s.encCh.snk.next = none ∧
      s.sched.yields (List.replicate 1 .enc) r :=
  ⟨⟨by decide, rfl, fun _ => ⟨_, Feed.yields_replicate _ _⟩⟩,
    encAt (writing .emit pB 0) [] 0, _, by decide, rfl, only_yields _⟩
/-- V-F7: a frame start and then one byte for ever, and DEC's turns that never stop. -/
def endless : State :=
  { commanded [] none 0 with
    decCh := { cmd := true, src := thenAll [.byte 0x10, .byte 0x20] (.byte 0x20), res := [] }
    sched := thenAll [] .dec }
/-- The bytes of `endless`. -/
def endlessByte (n : Nat) : Byte := if n = 0 then 0x10 else 0x20
theorem endlessByte_prefix (n : Nat) :
    (List.range (n + 2)).map endlessByte = 0x10 :: 0x20 :: List.replicate n 0x20 := by
  apply List.ext_getElem (by simp)
  rintro (_ | _ | i) h _ <;> simp [endlessByte]
theorem unstuffGo_spaces (n : Nat) (acc : List Byte) (k : Nat) :
    unstuffGo (List.replicate n 0x20#8) acc k = none := by
  induction n generalizing acc k with
  | zero => rfl
  | succ n ih =>
    cases n with
    | zero => rfl
    | succ n => simpa [List.replicate_succ, unstuffGo, DLE] using ih (acc ++ [0x20#8]) (k + 1)
/-- A body of an escape pair and a literal ETX at exactly the capacity; a scan that passes a DLE and
an ETX; and a `DECODE` whose body never ends. -/
theorem witness_EndlessBodyIsReadForever :
    (unstuff [0x10, 0x10, 0x03] = none ∧ ∃ (s : State) (q : Source) (r : Feed Turn),
      s.dec.phase = .body ∧ s.dec.dleOdd = false ∧ s.params.maxData = some 2 ∧
      withinMax s.params (s.dec.data.length + (bodyStores [0x10, 0x10, 0x03] 0).length) = true ∧
      s.decCh.src.yields ([0x10, 0x10, 0x03].map .byte) q ∧
      s.sched.yields (List.replicate 3 .dec) r) ∧
    (frameStart [0x10, 0x03, 0x41, 0x10] = none ∧ ∃ (s : State) (q : Source) (r : Feed Turn),
      s.dec.phase = .scan ∧ s.dec.prevDLE = false ∧
      s.decCh.src.yields ([0x10, 0x03, 0x41, 0x10].map .byte) q ∧
      s.sched.yields (List.replicate 4 .dec) r) ∧
    (endless.dec.phase = .idle ∧ endless.decCh.cmd = true ∧
      (∀ n, (decodeStream endless.params.maxData ((List.range n).map endlessByte)).1 = .eos) ∧
      (∀ n, ∃ q, endless.decCh.src.yields ((List.range n).map fun i => .byte (endlessByte i)) q) ∧
      ∀ n, ∃ r, endless.sched.yields (List.replicate n .dec) r) := by
  refine ⟨⟨by decide, { turns (decAt (inBody false []) ([0x10, 0x10, 0x03].map .byte)) [.dec, .dec, .dec] with
        params := { maxData := some 2, rejectLen := 0 } }, _, _, rfl, rfl, rfl, by decide,
      thenAll_yields _ _, only_yields _⟩,
    ⟨by decide, turns (decAt (scanning false) ([0x10, 0x03, 0x41, 0x10].map .byte))
        [.dec, .dec, .dec, .dec], _, _, rfl, rfl, thenAll_yields _ _, only_yields _⟩,
    rfl, rfl, ?_, ?_, fun _ => ⟨_, Feed.yields_replicate _ _⟩⟩
  · rintro (_ | _ | n)
    · rfl
    · rfl
    · have h := unstuffGo_spaces n [] 0
      rw [endlessByte_prefix]
      simp [decodeStream, frameStart, frameStartGo, DLE, isOther, ETX, endless, commanded, unstuff, h]
  · rintro (_ | _ | n)
    · exact ⟨_, rfl⟩
    · exact ⟨_, rfl, rfl⟩
    · have h : (List.range (n + 2)).map (fun i => SrcAnswer.byte (endlessByte i)) =
          .byte 0x10 :: .byte 0x20 :: List.replicate n (.byte 0x20) := by
        have := congrArg (List.map SrcAnswer.byte) (endlessByte_prefix n)
        simpa [List.map_map, Function.comp_def] using this
      rw [h]
      exact ⟨_, rfl, rfl, Feed.yields_replicate _ _⟩
/-- With a byte outstanding and without one. -/
theorem witness_ResetSetsTheUnitsItReaches :
    (∃ s : State, s.sched.next = some (.caller .dec) ∧
      (s.prog.take .dec).map Prod.fst = some (.reset true true true true) ∧
      s.dec.phase = .scan ∧ offered? s = none) ∧
    ∃ s : State, s.sched.next = some (.caller .enc) ∧
      (s.prog.take .enc).map Prod.fst = some (.reset false true false false) ∧
      offered? s = some 0x03 :=
  ⟨⟨calling .dec (.reset true true true true) (decAt (scanning true) [.byte 0x41]), by decide⟩,
    ⟨calling .enc (.reset false true false false) (encAt (writing .emit pB 6) [.ack] 0), by decide⟩⟩
theorem witness_CallerActionsReachTheirChannel :
    (∃ s : State, s.sched.next = some (.caller .dec) ∧
      s.prog.take .dec = some (.source Source.unattached, { dec := only [], enc := only [.decode] }) ∧
      s.dec.phase = .idle ∧ s.decCh.cmd = false) ∧
    (∃ s : State, s.sched.next = some (.caller .enc) ∧
      s.prog.take .enc = some (.sink Sink.unattached, { dec := only [.decode], enc := only [] }) ∧
      s.enc.phase = .idle ∧ s.encCh.cmd = none) ∧
    ∃ s : State, s.sched.next = some (.caller .enc) ∧
      s.prog.take .enc = some (.loop .stops, { dec := only [], enc := thenAll [] (.loop .stops) }) :=
  ⟨⟨{ State.reset with
      prog := { dec := only [.source Source.unattached], enc := only [.decode] }
      sched := only [.caller .dec] }, by decide⟩,
   ⟨{ State.reset with
      prog := { dec := only [.decode], enc := only [.sink Sink.unattached] }
      sched := only [.caller .enc] }, by decide⟩,
   ⟨{ State.reset with
      prog := { dec := only [], enc := thenAll [] (.loop .stops) }
      sched := only [.caller .enc] }, by decide⟩⟩
/-- Each statement about a next state of a step that needs the invariant, a body or a result. -/
theorem witness_EveryStepKeepsTheInvariant :
    (bodyAt true [0x41] (.byte 0x03) (some 1)).inv = true ∧
    ∃ t, step (bodyAt true [0x41] (.byte 0x03) (some 1)) = .next t := ⟨by decide, _, rfl⟩
theorem witness_OnlySharingAStreamStopsTheMachine :
    (calling .dec .otherReader (decAt (scanning false) [])).inv = true ∧
    step (calling .dec .otherReader (decAt (scanning false) [])) = .refused .sharedSource :=
  ⟨by decide, rfl⟩
theorem witness_DeliveringAResultLeavesTheUnitIdle :
    ∃ t, step (encAt (writing .emit pB 6) [.ack] 0) = .next t ∧ t.encCh.res = [.ok] :=
  ⟨_, rfl, rfl⟩
theorem witness_WaitingCommandIsNeverDropped :
    (commanded [] none 1).decCh.cmd = true ∧ (∃ t, step (commanded [] none 1) = .next t) ∧
    (ordered { id := 0x10, data := [] } [] 0 1).encCh.cmd = some { id := 0x10, data := [] } ∧
    ∃ t, step (ordered { id := 0x10, data := [] } [] 0 1) = .next t :=
  ⟨rfl, ⟨_, rfl⟩, rfl, _, rfl⟩
theorem witness_AccumulatorOnlyGrowsInABody :
    (bodyAt false [] (.byte 0x41) none).dec.phase = .body ∧
    ∃ t, step (bodyAt false [] (.byte 0x41) none) = .next t ∧ t.dec.phase = .body :=
  ⟨rfl, _, rfl, rfl⟩
theorem witness_BuildParametersNeverChange :
    ∃ t, step (bodyAt false [] (.byte 0x41) (some 0)) = .next t := ⟨_, rfl⟩
theorem witness_UnitStepsCommute :
    ({ bodyAt false [] (.byte 0x41) none with enc := writing .emit pB 0 } : State).inv = true ∧
    (only [Turn.dec, .encToken]).yields [.dec, .encToken] Feed.empty ∧
    (only [Turn.encToken, .dec]).yields [.encToken, .dec] Feed.empty :=
  ⟨by decide, only_yields _, only_yields _⟩
theorem witness_CodecsInABlockAreIndependent :
    (0 : Nat) ≠ 1 ∧ ∃ ts vs,
      stepAt 0 [bodyAt false [] (.byte 0x41) none, decAt (scanning true) [.byte 0x10]] = .next ts ∧
      stepAt 1 ts = .next vs := ⟨by decide, _, _, rfl, rfl⟩

end Sys2Proof.Tests
end

section
/-! `subCode` as a view of a packet's data (R29): an equation per form of the data, and the statement
they settle. -/

namespace Sys2Proof.Machine

@[simp] theorem subCode_data_nil (id : Byte) : subCode { id := id, data := [] } = 0x00#8 := rfl

@[simp] theorem subCode_data_cons (id d : Byte) (r : List Byte) :
    subCode { id := id, data := d :: r } = d := rfl

/-- Settles O31: the two equations of `subCode` are its two cases. -/
theorem subCodeIsTheFirstDataByte : Obligations.SubCodeIsTheFirstDataByte :=
  ⟨subCode_data_cons, subCode_data_nil⟩

end Sys2Proof.Machine
end

section
/-! The row DEC fetches (R88, R100): a waiting `DECODE` in `IDLE`, and in `SCAN` and `BODY` the row of the
answer, by its kind, its class and the phase's flag. -/

namespace Sys2Proof.Machine

theorem scanRow_other {b : Byte} (h : isOther b = true) (prev : Bool) :
    scanRow prev b = if prev then .scanStart b else .scanSkip b := by
  cases prev <;> simp [scanRow, classOf_other h]

theorem bodyRow_other {b : Byte} (h : isOther b = true) (odd : Bool) :
    bodyRow odd b = if odd then .bodyDrop b else .bodyLit b := by
  cases odd <;> simp [bodyRow, classOf_other h]

section
variable {s : State} {a : SrcAnswer}

theorem fetchDec_idle (hph : s.dec.phase = .idle) (hcmd : s.decCh.cmd = true) :
    fetchDec s = some .decode := by
  simp [fetchDec, decEvent, Dec.ctx, hph, hcmd, decodeRow, Decoded.instr?]

theorem fetchDec_scan (hph : s.dec.phase = .scan) (hsrc : s.decCh.src.next = some a) :
    fetchDec s = some (srcRow (scanRow s.dec.prevDLE) a) := by
  simp [fetchDec, decEvent, Dec.ctx, hph, hsrc, decodeRow, Decoded.instr?]

theorem fetchDec_body (hph : s.dec.phase = .body) (hsrc : s.decCh.src.next = some a) :
    fetchDec s = some (srcRow (bodyRow s.dec.dleOdd) a) := by
  simp [fetchDec, decEvent, Dec.ctx, hph, hsrc, decodeRow, Decoded.instr?]

/-- An answer that is no byte selects its row in `SCAN` and in `BODY` alike. -/
theorem fetchDec_scan_or_body {i : Instr} (hph : s.dec.phase = .scan ∨ s.dec.phase = .body)
    (hsrc : s.decCh.src.next = some a) (hrow : ∀ byteRow, srcRow byteRow a = i) :
    fetchDec s = some i := by
  rcases hph with hph | hph
  · rw [fetchDec_scan hph hsrc, hrow]
  · rw [fetchDec_body hph hsrc, hrow]

end

end Sys2Proof.Machine
end

section
/-! The rows of DEC, each where it is selected (R101 to R113): its effect written out, with the store of
R114 said once for the four rows that store. -/

namespace Sys2Proof.Machine

/-! ### The store behind an answer -/

/-- A taken answer and a store (R114): Overflow at a full accumulator, else one more byte of data. -/
theorem storeByte_takeAnswer (b : Byte) (s : State) :
    storeByte b (takeAnswer s) =
      if s.params.maxData = some s.dec.data.length then
        { s with
          dec := Dec.idle
          decCh := { s.decCh with src := s.decCh.src.pop, res := s.decCh.res ++ [.overflow] } }
      else
        { s with
          dec := { s.dec with data := s.dec.data ++ [b] }
          decCh := { s.decCh with src := s.decCh.src.pop } } := rfl

/-- Clearing `DEC.dleOdd` after a store changes nothing of the values of reset an Overflow leaves. -/
theorem setDleOdd_false_storeByte_takeAnswer (b : Byte) (s : State) :
    setDleOdd false (storeByte b (takeAnswer s)) =
      if s.params.maxData = some s.dec.data.length then
        { s with
          dec := Dec.idle
          decCh := { s.decCh with src := s.decCh.src.pop, res := s.decCh.res ++ [.overflow] } }
      else
        { s with
          dec := { s.dec with data := s.dec.data ++ [b], dleOdd := false }
          decCh := { s.decCh with src := s.decCh.src.pop } } := by
  rw [storeByte_takeAnswer]
  split <;> rfl

theorem setPrevDLE_self {s : State} {v : Bool} (h : s.dec.prevDLE = v) : setPrevDLE v s = s := by
  subst h; rfl

theorem setDleOdd_self {s : State} {v : Bool} (h : s.dec.dleOdd = v) : setDleOdd v s = s := by
  subst h; rfl

/-- A store leaves an even parity even. -/
theorem storeByte_dleOdd_false {b : Byte} {s : State} (h : s.dec.dleOdd = false) :
    (storeByte b s).dec.dleOdd = false := by
  rcases storeByte_cases b s with ⟨-, heq⟩ | ⟨-, heq⟩ <;> rw [heq]
  · rfl
  · exact h

/-! ### What each row does where it is selected -/

section
variable {s : State} {b : Byte}

theorem exec_decode_idle (hph : s.dec.phase = .idle) :
    exec .decode s = .next
      { s with
        dec := { phase := .scan, prevDLE := false, dleOdd := false, id := none, data := [] }
        decCh := { s.decCh with cmd := false } } :=
  if_pos hph

theorem exec_scanDle (h : answered .scan (.byte DLE) s = true) :
    exec .scanDle s = .next (setPrevDLE true (takeAnswer s)) := by
  simp [exec, execScanDle, h]

theorem exec_scanEtx (h : answered .scan (.byte ETX) s = true) :
    exec .scanEtx s = .next (setPrevDLE false (takeAnswer s)) := by
  simp [exec, execScanEtx, h]

theorem exec_scanSkip (h : answered .scan (.byte b) s = true) (hb : isOther b = true)
    (hprev : s.dec.prevDLE = false) : exec (.scanSkip b) s = .next (takeAnswer s) := by
  have hself : setPrevDLE false (takeAnswer s) = takeAnswer s := setPrevDLE_self hprev
  simp [exec, execScanSkip, h, hb, hprev, hself]

theorem exec_scanStart (h : answered .scan (.byte b) s = true) (hb : isOther b = true)
    (hprev : s.dec.prevDLE = true) :
    exec (.scanStart b) s = .next
      ((takeAnswer s).setDec
        { s.dec with phase := .body, dleOdd := false, id := some b, data := [] }) := by
  simp [exec, execScanStart, h, hb, hprev]

theorem exec_bodyDle (h : answered .body (.byte DLE) s = true) (hodd : s.dec.dleOdd = false) :
    exec .bodyDle s = .next (setDleOdd true (takeAnswer s)) := by
  simp [exec, execBodyDle, h, hodd]

theorem exec_bodyEsc (h : answered .body (.byte DLE) s = true) (hodd : s.dec.dleOdd = true) :
    exec .bodyEsc s = .next (setDleOdd false (storeByte DLE (takeAnswer s))) := by
  simp [exec, execBodyEsc, h, hodd]

theorem exec_bodyTerm {id : Byte} (h : answered .body (.byte ETX) s = true)
    (hodd : s.dec.dleOdd = true) (hid : s.dec.id = some id) :
    exec .bodyTerm s = .next (respondDec (.ok { id := id, data := s.dec.data }) (takeAnswer s)) := by
  simp [exec, execBodyTerm, h, hodd, hid]

theorem exec_bodyEtxlit (h : answered .body (.byte ETX) s = true) (hodd : s.dec.dleOdd = false) :
    exec .bodyEtxlit s = .next (storeByte ETX (takeAnswer s)) := by
  simp [exec, execBodyEtxlit, h, hodd]

theorem exec_bodyDrop (h : answered .body (.byte b) s = true) (hb : isOther b = true)
    (hodd : s.dec.dleOdd = true) :
    exec (.bodyDrop b) s = .next (setDleOdd false (storeByte b (takeAnswer s))) := by
  simp [exec, execBodyDrop, h, hb, hodd]

theorem exec_bodyLit (h : answered .body (.byte b) s = true) (hb : isOther b = true)
    (hodd : s.dec.dleOdd = false) :
    exec (.bodyLit b) s = .next (storeByte b (takeAnswer s)) := by
  have hself : setDleOdd false (storeByte b (takeAnswer s)) = storeByte b (takeAnswer s) :=
    setDleOdd_self (storeByte_dleOdd_false hodd)
  simp [exec, execBodyLit, h, hb, hodd, hself]

/-- The guard of the two rows that abort on a failure of the source. -/
theorem answered_scan_or_body {a : SrcAnswer} (hph : s.dec.phase = .scan ∨ s.dec.phase = .body)
    (hsrc : s.decCh.src.next = some a) : (answered .scan a s || answered .body a s) = true := by
  simpa [answered, hsrc] using hph

end

/-! ### The statements, row by row -/

/-- Settles O7: in `IDLE` with the command waiting, `DECODE` is fetched and accepted. -/
theorem decodeStartsAFreshScan : Obligations.DecodeStartsAFreshScan :=
  fun _ hph hcmd => ⟨fetchDec_idle hph hcmd, exec_decode_idle hph⟩

/-- Settles O8: the row of `SCAN` for a DLE, and its effect. -/
theorem scanDleRemembersTheDle : Obligations.ScanDleRemembersTheDle :=
  fun _ hph hsrc => ⟨fetchDec_scan hph hsrc, exec_scanDle (answered_iff.2 ⟨hph, hsrc⟩)⟩

/-- Settles O9: the row of `SCAN` for an ETX, and its effect. -/
theorem scanEtxForgetsTheDle : Obligations.ScanEtxForgetsTheDle :=
  fun _ hph hsrc => ⟨fetchDec_scan hph hsrc, exec_scanEtx (answered_iff.2 ⟨hph, hsrc⟩)⟩

/-- Settles O10: an OTHER byte with no DLE before it selects SCAN.SKIP, whose write of `DEC.prevDLE`
changes nothing. -/
theorem scanSkipDiscardsTheByte : Obligations.ScanSkipDiscardsTheByte := by
  intro s b hdle hetx hph hprev hsrc
  have hb : isOther b = true := isOther_iff.2 ⟨hdle, hetx⟩
  constructor
  · rw [fetchDec_scan hph hsrc, srcRow, scanRow_other hb, hprev]; rfl
  · exact exec_scanSkip (answered_iff.2 ⟨hph, hsrc⟩) hb hprev

/-- Settles O11: an OTHER byte behind a DLE selects SCAN.START. -/
theorem scanStartAdoptsTheId : Obligations.ScanStartAdoptsTheId := by
  intro s b hdle hetx hph hprev hsrc
  have hb : isOther b = true := isOther_iff.2 ⟨hdle, hetx⟩
  constructor
  · rw [fetchDec_scan hph hsrc, srcRow, scanRow_other hb, hprev]; rfl
  · exact exec_scanStart (answered_iff.2 ⟨hph, hsrc⟩) hb hprev

/-- Settles O12: a DLE at even parity selects BODY.DLE, which stores nothing. -/
theorem bodyDleIsWithheld : Obligations.BodyDleIsWithheld := by
  intro s hph hodd hsrc
  constructor
  · rw [fetchDec_body hph hsrc, hodd]; rfl
  · exact exec_bodyDle (answered_iff.2 ⟨hph, hsrc⟩) hodd

/-- Settles O13: a DLE at odd parity selects BODY.ESC, a store that makes the parity even. -/
theorem bodyEscStoresOneDle : Obligations.BodyEscStoresOneDle := by
  intro s hph hodd hsrc
  constructor
  · rw [fetchDec_body hph hsrc, hodd]; rfl
  · rw [exec_bodyEsc (answered_iff.2 ⟨hph, hsrc⟩) hodd, setDleOdd_false_storeByte_takeAnswer]; rfl

/-- Settles O14: an ETX at odd parity selects BODY.TERM, which delivers the packet. -/
theorem bodyTermDeliversThePacket : Obligations.BodyTermDeliversThePacket := by
  intro s id hph hodd hid hsrc
  constructor
  · rw [fetchDec_body hph hsrc, hodd]; rfl
  · exact exec_bodyTerm (answered_iff.2 ⟨hph, hsrc⟩) hodd hid

/-- Settles O15: an ETX at even parity selects BODY.ETXLIT, a store. -/
theorem bodyEtxAtEvenParityIsData : Obligations.BodyEtxAtEvenParityIsData := by
  intro s hph hodd hsrc
  constructor
  · rw [fetchDec_body hph hsrc, hodd]; rfl
  · exact exec_bodyEtxlit (answered_iff.2 ⟨hph, hsrc⟩) hodd

/-- Settles O16: an OTHER byte at odd parity selects BODY.DROP, a store of that byte alone. -/
theorem bodyDropLosesTheWithheldDle : Obligations.BodyDropLosesTheWithheldDle := by
  intro s b hdle hetx hph hodd hsrc
  have hb : isOther b = true := isOther_iff.2 ⟨hdle, hetx⟩
  constructor
  · rw [fetchDec_body hph hsrc, srcRow, bodyRow_other hb, hodd]; rfl
  · rw [exec_bodyDrop (answered_iff.2 ⟨hph, hsrc⟩) hb hodd, setDleOdd_false_storeByte_takeAnswer]

/-- Settles O17: an OTHER byte at even parity selects BODY.LIT, whose write of `DEC.dleOdd` changes
nothing. -/
theorem bodyLitStoresTheByte : Obligations.BodyLitStoresTheByte := by
  intro s b hdle hetx hph hodd hsrc
  have hb : isOther b = true := isOther_iff.2 ⟨hdle, hetx⟩
  constructor
  · rw [fetchDec_body hph hsrc, srcRow, bodyRow_other hb, hodd]; rfl
  · rw [exec_bodyLit (answered_iff.2 ⟨hph, hsrc⟩) hb hodd, storeByte_takeAnswer]

/-- Settles O18: `Eos` selects SRC.EOS in both phases, and its guard holds in both. -/
theorem sourceEndAbortsTheDecode : Obligations.SourceEndAbortsTheDecode := by
  intro s hph hsrc
  refine ⟨fetchDec_scan_or_body hph hsrc fun _ => rfl, ?_⟩
  rw [exec, execSrcEos, answered_scan_or_body hph hsrc]; rfl

/-- Settles O19: `Err(e)` selects SRC.ERR in both phases, and its guard holds in both. -/
theorem sourceErrorAbortsTheDecode : Obligations.SourceErrorAbortsTheDecode := by
  intro s e hph hsrc
  refine ⟨fetchDec_scan_or_body hph hsrc fun _ => rfl, ?_⟩
  rw [exec, execSrcErr, answered_scan_or_body hph hsrc]; rfl

end Sys2Proof.Machine
end

section
/-! Runs of DEC's turns (R100): `DecTakes` says what a sequence of answers does to DEC's registers and what
it delivers, with everything else unchanged; each row gives it for one answer, and sequences of answers
compose. -/

namespace Sys2Proof.Machine

/-- With parameters `c`, DEC takes the answers `l` from registers `d` to registers `d'`, one turn each,
delivers the results `out` and changes nothing else. -/
def DecTakes (c : Params) (d : Dec) (l : List SrcAnswer) (d' : Dec) (out : List DecResult) : Prop :=
  ∀ (s : State) (q : Source) (r : Feed Turn), s.params = c → s.dec = d → s.decCh.src.yields l q →
    s.sched.yields (List.replicate l.length .dec) r →
    steps l.length s = .next
      { s with
        dec := d'
        decCh := { s.decCh with src := q, res := s.decCh.res ++ out }
        sched := r }

/-- A turn of DEC runs the row it has fetched. -/
theorem step_dec_row {s : State} {i : Instr} (hturn : s.sched.next = some .dec)
    (hrow : fetchDec (s.setSched s.sched.pop) = some i) :
    step s = exec i (s.setSched s.sched.pop) := by
  rw [step_turn hturn, turn, hrow, runRow]

/-- No answer, no turn. -/
theorem DecTakes.nil (c : Params) (d : Dec) : DecTakes c d [] d [] := by
  intro s q r _ hd hsrc hsched
  cases hd; cases hsrc; cases hsched
  simp

/-- Answers one after another. -/
theorem DecTakes.append {c : Params} {d d' d'' : Dec} {l m : List SrcAnswer} {out out' : List DecResult}
    (hl : DecTakes c d l d' out) (hm : DecTakes c d' m d'' out') :
    DecTakes c d (l ++ m) d'' (out ++ out') := by
  intro s q r hc hd hsrc hsched
  rw [List.length_append] at hsched ⊢
  rw [List.replicate_add] at hsched
  obtain ⟨q₁, hsrcl, hsrcm⟩ := Feed.yields_append.1 hsrc
  obtain ⟨r₁, hschedl, hschedm⟩ := Feed.yields_append.1 hsched
  rw [steps_add (hl s q₁ r₁ hc hd hsrcl hschedl), ← List.append_assoc]
  exact hm _ q r hc rfl hsrcm hschedm

/-- One answer: the row it selects and the effect of that row. -/
theorem DecTakes.of_row {c : Params} {d d' : Dec} {a : SrcAnswer} {out : List DecResult} (i : Instr)
    (hrow : ∀ s : State, s.params = c → s.dec = d → s.decCh.src.next = some a →
      fetchDec s = some i ∧
      exec i s = .next
        { s with
          dec := d'
          decCh := { s.decCh with src := s.decCh.src.pop, res := s.decCh.res ++ out } }) :
    DecTakes c d [a] d' out := by
  intro s q r hc hd hsrc hsched
  obtain ⟨hnext, rfl⟩ := hsrc
  obtain ⟨hturn, rfl⟩ := hsched
  obtain ⟨hfetch, hexec⟩ := hrow (s.setSched s.sched.pop) hc hd hnext
  exact steps_succ 0 ((step_dec_row hturn hfetch).trans hexec)

/-! ### The registers in `SCAN` and in `BODY` -/

/-- The registers in `SCAN`: no id and no data yet (R101). -/
def Dec.inScan (prevDLE : Bool) : Dec :=
  { phase := .scan, prevDLE := prevDLE, dleOdd := false, id := none, data := [] }

/-- The registers in `BODY`; `prevDLE` has no meaning there (R24). -/
def Dec.inBody (prevDLE : Bool) (id : Option Byte) (dleOdd : Bool) (data : List Byte) : Dec :=
  { phase := .body, prevDLE := prevDLE, dleOdd := dleOdd, id := id, data := data }

theorem Dec.eq_inBody {d : Dec} (h : d.phase = .body) :
    d = .inBody d.prevDLE d.id d.dleOdd d.data := by
  cases d; cases h; rfl

/-! ### One byte -/

theorem etx_ne_dle : ETX ≠ DLE := by decide

section
variable {c : Params} {prev odd : Bool} {id : Option Byte} {data : List Byte} {b : Byte}

/-- A byte that ends no start pair is discarded, and `prevDLE` tells whether it was DLE
(R102 to R104). -/
theorem decTakes_scan (h : (prev && isOther b) = false) :
    DecTakes c (.inScan prev) [.byte b] (.inScan (decide (b = DLE))) [] := by
  rcases classOf_cases b with ⟨rfl, -⟩ | ⟨rfl, -⟩ | ⟨hb, -⟩
  · refine .of_row .scanDle fun s _ hd hsrc => ?_
    simpa [hd, Dec.inScan] using scanDleRemembersTheDle s (congrArg Dec.phase hd) hsrc
  · refine .of_row .scanEtx fun s _ hd hsrc => ?_
    simpa [hd, etx_ne_dle, Dec.inScan] using scanEtxForgetsTheDle s (congrArg Dec.phase hd) hsrc
  · obtain ⟨hdle, hetx⟩ := isOther_iff.1 hb
    obtain rfl : prev = false := by simpa [hb] using h
    refine .of_row (.scanSkip b) fun s _ hd hsrc => ?_
    simpa [hd, hdle, Dec.inScan] using
      scanSkipDiscardsTheByte s b hdle hetx (congrArg Dec.phase hd) (congrArg Dec.prevDLE hd) hsrc

/-- The OTHER byte of a start pair is the id (R105). -/
theorem decTakes_start (hb : isOther b = true) :
    DecTakes c (.inScan true) [.byte b] (.inBody true (some b) false []) [] := by
  obtain ⟨hdle, hetx⟩ := isOther_iff.1 hb
  refine .of_row (.scanStart b) fun s _ hd hsrc => ?_
  simpa [hd, Dec.inScan, Dec.inBody] using
    scanStartAdoptsTheId s b hdle hetx (congrArg Dec.phase hd) (congrArg Dec.prevDLE hd) hsrc

/-- The first DLE of a pair is withheld (R106). -/
theorem decTakes_withhold :
    DecTakes c (.inBody prev id false data) [.byte DLE] (.inBody prev id true data) [] := by
  refine .of_row .bodyDle fun s _ hd hsrc => ?_
  simpa [hd, Dec.inBody] using bodyDleIsWithheld s (congrArg Dec.phase hd) (congrArg Dec.dleOdd hd) hsrc

/-- The second DLE of a pair is stored (R107). -/
theorem decTakes_pair (hroom : c.maxData ≠ some data.length) :
    DecTakes c (.inBody prev id true data) [.byte DLE] (.inBody prev id false (data ++ [DLE])) [] := by
  refine .of_row .bodyEsc fun s hc hd hsrc => ?_
  simpa [hc, hd, hroom, Dec.inBody, DLE] using
    bodyEscStoresOneDle s (congrArg Dec.phase hd) (congrArg Dec.dleOdd hd) hsrc

/-- The terminator pair's ETX delivers the packet (R108). -/
theorem decTakes_term {id : Byte} :
    DecTakes c (.inBody prev (some id) true data) [.byte ETX] .idle
      [.ok { id := id, data := data }] := by
  refine .of_row .bodyTerm fun s _ hd hsrc => ?_
  simpa [hd, Dec.inBody] using
    bodyTermDeliversThePacket s id (congrArg Dec.phase hd) (congrArg Dec.dleOdd hd)
      (congrArg Dec.id hd) hsrc

/-- Any other byte is stored: an ETX at even parity, and an OTHER byte at both, with a withheld DLE
dropped (R109 to R111). -/
theorem decTakes_literal (hroom : c.maxData ≠ some data.length) (hdle : b ≠ DLE)
    (hterm : ¬ (odd = true ∧ b = ETX)) :
    DecTakes c (.inBody prev id odd data) [.byte b] (.inBody prev id false (data ++ [b])) [] := by
  by_cases hetx : b = ETX
  · subst hetx
    obtain rfl : odd = false := by simpa using hterm
    refine .of_row .bodyEtxlit fun s hc hd hsrc => ?_
    simpa [hc, hd, hroom, Dec.inBody, ETX] using
      bodyEtxAtEvenParityIsData s (congrArg Dec.phase hd) (congrArg Dec.dleOdd hd) hsrc
  · cases odd with
    | true =>
      refine .of_row (.bodyDrop b) fun s hc hd hsrc => ?_
      simpa [hc, hd, hroom, Dec.inBody] using
        bodyDropLosesTheWithheldDle s b hdle hetx (congrArg Dec.phase hd) (congrArg Dec.dleOdd hd) hsrc
    | false =>
      refine .of_row (.bodyLit b) fun s hc hd hsrc => ?_
      simpa [hc, hd, hroom, Dec.inBody] using
        bodyLitStoresTheByte s b hdle hetx (congrArg Dec.phase hd) (congrArg Dec.dleOdd hd) hsrc

end

end Sys2Proof.Machine
end

section
/-! A run of DLE bytes in a body (R117): half of them are stored, the last of an odd run is withheld, and
the byte behind the run decides. -/

namespace Sys2Proof.Machine

variable {c : Params} {prev : Bool} {id : Option Byte} {data : List Byte}

/-- `n` DLE bytes read at even parity store `n / 2` of them and leave the parity of `n`. -/
theorem decTakes_replicate_dle (hmax : c.maxData = none) (n : Nat) :
    DecTakes c (.inBody prev id false data) (List.replicate n (.byte DLE))
      (.inBody prev id (decide (n % 2 = 1)) (data ++ List.replicate (n / 2) DLE)) [] := by
  induction n with
  | zero => simpa using DecTakes.nil c _
  | succ n ih =>
    rw [List.replicate_succ']
    by_cases hn : n % 2 = 1
    · have hhalf : (n + 1) / 2 = n / 2 + 1 := by omega
      have heven : ¬ (n + 1) % 2 = 1 := by omega
      simp only [hn, decide_true] at ih
      simpa [heven, hhalf, List.replicate_succ'] using ih.append (decTakes_pair (by simp [hmax]))
    · have hhalf : (n + 1) / 2 = n / 2 := by omega
      have hodd : (n + 1) % 2 = 1 := by omega
      simp only [hn, decide_false] at ih
      simpa [hodd, hhalf] using ih.append decTakes_withhold

/-- Settles O38: the run of DLE bytes, and then the terminator's ETX at odd parity or a stored byte. -/
theorem dleRunStoresItsPairs : Obligations.DleRunStoresItsPairs := by
  intro s n x id q r _ hx hmax hph hodd hid hsrc hsched
  have hbody : s.dec = .inBody s.dec.prevDLE (some id) false s.dec.data := by
    rw [← hid, ← hodd]; exact Dec.eq_inBody hph
  have hrun := decTakes_replicate_dle (prev := s.dec.prevDLE) (id := some id) (data := s.dec.data)
    hmax n
  have hlen : (List.replicate n (SrcAnswer.byte DLE) ++ [SrcAnswer.byte x]).length = n + 1 := by simp
  rw [← hlen] at hsched ⊢
  dsimp only
  split
  next hend =>
    obtain ⟨hn, rfl⟩ := hend
    simp only [hn, decide_true] at hrun
    exact hrun.append decTakes_term s q r rfl hbody hsrc hsched
  next hend =>
    have hroom : s.params.maxData ≠ some (s.dec.data ++ List.replicate (n / 2) DLE).length := by
      simp [hmax]
    have hstored := hrun.append (decTakes_literal hroom hx
      fun ⟨hn, hetx⟩ => hend ⟨of_decide_eq_true hn, hetx⟩)
    rw [hstored s q r rfl hbody hsrc hsched]
    simp [hph, hodd, hid, Dec.inBody, DLE]

end Sys2Proof.Machine
end

section
/-! A whole frame behind bytes that hold no start pair (R118, R120): the scan passes the bytes, the body
gives the stuffed data back, and the terminator pair delivers the packet. -/

namespace Sys2Proof.Machine

/-! ### The scan -/

/-- The bytes hold no start pair: no OTHER byte with a DLE before it (R78, R120). -/
def NoStartPair (g : List Byte) : Prop :=
  ∀ j, ¬ (g[j]? = some DLE ∧ ∃ b, g[j + 1]? = some b ∧ b ≠ DLE ∧ b ≠ ETX)

theorem NoStartPair.tail {a : Byte} {g : List Byte} (h : NoStartPair (a :: g)) : NoStartPair g :=
  fun j => h (j + 1)

theorem NoStartPair.head {a b : Byte} {g : List Byte} (h : NoStartPair (a :: b :: g)) :
    (decide (a = DLE) && isOther b) = false := by
  simpa [isOther] using h 0

/-- The scan finds no frame start behind `a` in bytes that hold no start pair. -/
theorem frameStartGo_of_noStartPair {a : Byte} {g : List Byte} (h : NoStartPair (a :: g)) (i : Nat) :
    frameStartGo (decide (a = DLE)) g i = none := by
  induction g generalizing a i with
  | nil => rfl
  | cons b g ih => simpa [frameStartGo, h.head] using ih h.tail (i + 1)

/-- R78 finds no frame start in bytes that hold no start pair. -/
theorem frameStart_of_noStartPair {g : List Byte} (h : NoStartPair g) : frameStart g = none := by
  cases g with
  | nil => rfl
  | cons a g => simpa [frameStart, frameStartGo] using frameStartGo_of_noStartPair h 1

/-- DEC discards the bytes in which the scan of R78 finds no frame start. -/
theorem decTakes_scan_no_start {c : Params} {prev : Bool} {g : List Byte} {i : Nat}
    (h : frameStartGo prev g i = none) :
    ∃ prev', DecTakes c (.inScan prev) (g.map .byte) (.inScan prev') [] := by
  induction g generalizing prev i with
  | nil => exact ⟨prev, .nil c _⟩
  | cons b g ih =>
    cases hpair : prev && isOther b with
    | true => simp [frameStartGo, hpair] at h
    | false =>
      simp only [frameStartGo, hpair] at h
      obtain ⟨prev', hg⟩ := ih h
      exact ⟨prev', (decTakes_scan hpair).append hg⟩

/-! ### The body -/

theorem withinMax_iff {c : Params} {n : Nat} :
    withinMax c n = true ↔ ∀ m, c.maxData = some m → n ≤ m := by
  cases h : c.maxData <;> simp [withinMax, h]

/-- Below a count within `MAX_DATA` the accumulator is not full. -/
theorem room_of_withinMax {c : Params} {k n : Nat} (h : withinMax c n = true) (hk : k < n) :
    c.maxData ≠ some k :=
  fun hfull => Nat.not_le_of_lt hk (withinMax_iff.1 h k hfull)

section
variable {c : Params} {prev : Bool} {id : Option Byte} {acc : List Byte}

/-- The stuffed bytes of one data byte store that byte. -/
theorem decTakes_stuffByte (d : Byte) (hroom : c.maxData ≠ some acc.length) :
    DecTakes c (.inBody prev id false acc) ((stuffByte d).map .byte)
      (.inBody prev id false (acc ++ [d])) [] := by
  by_cases hd : d = DLE
  · subst hd
    exact decTakes_withhold.append (decTakes_pair hroom)
  · rw [stuffByte_of_ne hd]
    exact decTakes_literal hroom hd (by simp)

/-- The stuffed data, within `MAX_DATA`, is stored as it was before stuffing. -/
theorem decTakes_stuff (data : List Byte) (hmax : withinMax c (acc.length + data.length) = true) :
    DecTakes c (.inBody prev id false acc) ((stuff data).map .byte)
      (.inBody prev id false (acc ++ data)) [] := by
  induction data generalizing acc with
  | nil => simpa using DecTakes.nil c _
  | cons d data ih =>
    have hroom : c.maxData ≠ some acc.length := room_of_withinMax hmax (by simp)
    have hrest : withinMax c ((acc ++ [d]).length + data.length) = true := by
      simpa [Nat.add_assoc, Nat.add_comm 1] using hmax
    simpa using (decTakes_stuffByte d hroom).append (ih hrest)

end

/-! ### The frame -/

/-- A frame within `MAX_DATA`, read from anywhere in a scan, delivers its packet. -/
theorem decTakes_frame {c : Params} {p : Packet} (prev : Bool) (hid : isOther p.id = true)
    (hmax : withinMax c p.data.length = true) :
    DecTakes c (.inScan prev) ((frame p).map .byte) .idle [.ok p] := by
  have hdle : DecTakes c (.inScan prev) [.byte DLE] (.inScan true) [] :=
    decTakes_scan (by cases prev <;> rfl)
  have hstart : DecTakes c (.inScan prev) [.byte DLE, .byte p.id]
      (.inBody true (some p.id) false []) [] :=
    hdle.append (decTakes_start hid)
  have hdata : DecTakes c (.inBody true (some p.id) false []) ((stuff p.data).map .byte)
      (.inBody true (some p.id) false p.data) [] :=
    decTakes_stuff (acc := []) p.data (by simpa using hmax)
  have hend : DecTakes c (.inBody true (some p.id) false p.data) [.byte DLE, .byte ETX] .idle [.ok p] :=
    decTakes_withhold.append decTakes_term
  simpa using hstart.append (hdata.append hend)

/-- A waiting `DECODE` is accepted, and then the answers are taken (R101). -/
theorem steps_decode_then {s : State} {l : List SrcAnswer} {d : Dec} {out : List DecResult} {q : Source}
    {r : Feed Turn} (hl : DecTakes s.params (.inScan false) l d out) (hph : s.dec.phase = .idle)
    (hcmd : s.decCh.cmd = true) (hsrc : s.decCh.src.yields l q)
    (hsched : s.sched.yields (List.replicate (1 + l.length) .dec) r) :
    steps (1 + l.length) s = .next
      { s with
        dec := d
        decCh := { cmd := false, src := q, res := s.decCh.res ++ out }
        sched := r } := by
  rw [Nat.add_comm, List.replicate_succ] at hsched
  obtain ⟨hturn, hrest⟩ := hsched
  have haccept := (step_dec_row hturn (fetchDec_idle hph hcmd)).trans (exec_decode_idle hph)
  rw [Nat.add_comm, steps_succ _ haccept]
  exact hl _ q r rfl rfl hsrc hrest

/-- Settles O40: the scan passes the garbage, and the frame behind it delivers its packet. -/
theorem decodeResynchronisesToTheFrame : Obligations.DecodeResynchronisesToTheFrame := by
  intro s p g q r n hdle hetx hmax hg hph hcmd hsrc hn hsched
  obtain ⟨prev, hscan⟩ := decTakes_scan_no_start (c := s.params) (frameStart_of_noStartPair hg)
  have hrun : DecTakes s.params (.inScan false) ((g ++ frame p).map .byte) .idle [.ok p] := by
    rw [List.map_append]
    exact hscan.append (decTakes_frame prev (isOther_iff.2 ⟨hdle, hetx⟩) hmax)
  have hlen : n = 1 + ((g ++ frame p).map SrcAnswer.byte).length := by
    rw [hn, List.length_map, List.length_append, Nat.add_assoc]
  subst hlen
  exact steps_decode_then hrun hph hcmd hsrc hsched

end Sys2Proof.Machine
end

section
/-! The row ENC fetches (R88, R140): in `IDLE` the row of the waiting `ENCODE(p)`, by the class of its id,
and with a byte on offer the row of the sink's answer. -/

namespace Sys2Proof.Machine

theorem encodeRow_of_encodable {p : Packet} (h : p.encodable = true) : encodeRow p = .encode p :=
  if_pos h

theorem encodeRow_of_not_encodable {p : Packet} (h : p.encodable = false) :
    encodeRow p = .encodeReject p := by
  simp [encodeRow, h]

/-- A write is outstanding: ENC holds the packet `p` and the index `k`, and `b` is the byte `W[k]` of the
sequence its phase writes (R34, R140). -/
structure Offering (s : State) (p : Packet) (k : Nat) (b : Byte) : Prop where
  pkt : s.enc.pkt = some p
  index : s.enc.k = some k
  byte : (wire s.params s.enc.phase p)[k]? = some b

section
variable {s : State} {p : Packet} {k : Nat} {b : Byte}

theorem Offering.phase_ne_idle (h : Offering s p k b) : s.enc.phase ≠ .idle := by
  intro hidle
  simpa [hidle] using h.byte

theorem fetchEnc_idle (hph : s.enc.phase = .idle) (hcmd : s.encCh.cmd = some p) :
    fetchEnc s = some (encodeRow p) := by
  simp [fetchEnc, encEvent, Enc.ctx, hph, hcmd, decodeRow, Decoded.instr?]

theorem fetchEnc_offering {r : SnkReply} (h : Offering s p k b) (hsnk : s.encCh.snk.next = some r) :
    fetchEnc s = some (snkRow r.answer) := by
  cases hph : s.enc.phase with
  | idle => exact absurd hph h.phase_ne_idle
  | emit => simp [fetchEnc, encEvent, Enc.ctx, hph, hsnk, decodeRow, Decoded.instr?]
  | reject => simp [fetchEnc, encEvent, Enc.ctx, hph, hsnk, decodeRow, Decoded.instr?]

end

end Sys2Proof.Machine
end

section
/-! The rows of ENC, each where it is selected (R141, R142, R146, R147): its effect written out, with what
follows an `Ack` said once for the rows that write. -/

namespace Sys2Proof.Machine

section
variable {s : State} {p : Packet} {k : Nat} {b : Byte}

/-! ### Accepting a command -/

/-- The accepted command is the one that waits, so it leaves its channel. -/
theorem takeEncode_waiting (hcmd : s.encCh.cmd = some p) :
    takeEncode p s = { s with encCh := { s.encCh with cmd := none } } := by
  simp [takeEncode, State.setEncCh, hcmd]

theorem exec_encode_idle (hp : p.encodable = true) (hph : s.enc.phase = .idle)
    (hcmd : s.encCh.cmd = some p) :
    exec (.encode p) s = .next
      { s with
        enc := { phase := .emit, pkt := some p, k := some 0 }
        encCh := { s.encCh with cmd := none } } := by
  simp [exec, execEncode, hp, hph, takeEncode_waiting hcmd, State.setEnc]

/-- With `REJECT_PREFIX_LEN` 0 the refusal ends the command at once; else ENC goes to write `W` first. -/
theorem exec_encodeReject_idle (hp : p.encodable = false) (hph : s.enc.phase = .idle)
    (hcmd : s.encCh.cmd = some p) :
    exec (.encodeReject p) s = .next
      (if s.params.rejectLen = 0 then
        { s with
          enc := Enc.idle
          encCh := { s.encCh with cmd := none, res := s.encCh.res ++ [.invalidId p.id] } }
      else
        { s with
          enc := { phase := .reject, pkt := some p, k := some 0 }
          encCh := { s.encCh with cmd := none } }) := by
  simp [exec, execEncodeReject, hp, hph, takeEncode_waiting hcmd, respondEnc, State.setEnc,
    State.setEncCh]

/-! ### What follows an answer of the sink -/

/-- The state behind a taken `W[k]` that is not the last byte (R146). -/
def offerNext (k : Nat) (b : Byte) (s : State) : State :=
  { s with
    enc := { s.enc with k := some (k + 1) }
    encCh := { s.encCh with snk := s.encCh.snk.pop.put b } }

/-- The sink has taken `W[k]` (R146): the next byte is offered, or the phase's result is delivered. -/
theorem advance_takeReply (p : Packet) (k : Nat) (b : Byte) (s : State) :
    advance p k (takeReply (some b) s) =
      if k + 1 < (wire s.params s.enc.phase p).length then offerNext k b s
      else
        { s with
          enc := Enc.idle
          encCh := { s.encCh with
            snk := s.encCh.snk.pop.put b
            res := s.encCh.res ++ [if s.enc.phase = .emit then .ok else .invalidId p.id] } } := by
  have hcases := advance_cases p k (takeReply (some b) s)
  rw [takeReply_params, takeReply_enc] at hcases
  rcases hcases with ⟨hlt, heq⟩ | ⟨hle, hemit, heq⟩ | ⟨hle, hemit, heq⟩ <;> rw [heq]
  · exact (if_pos hlt).symm
  · rw [if_neg (Nat.not_lt.2 hle), if_pos hemit]; rfl
  · rw [if_neg (Nat.not_lt.2 hle), if_neg hemit]; rfl

theorem Offering.next {c : Byte} (h : Offering s p k b)
    (hc : (wire s.params s.enc.phase p)[k + 1]? = some c) : Offering (offerNext k b s) p (k + 1) c :=
  ⟨h.pkt, rfl, hc⟩

theorem sinkAck_offering (h : Offering s p k b) :
    sinkAck s = .next (advance p k (takeReply (some b) s)) :=
  withOffer_of_offer h.pkt h.index h.byte

theorem sinkAck_of_more (h : Offering s p k b) (hmore : k + 1 < (wire s.params s.enc.phase p).length) :
    sinkAck s = .next (offerNext k b s) := by
  rw [sinkAck_offering h, advance_takeReply, if_pos hmore]

theorem exec_snkAck (h : Offering s p k b) (hack : s.encCh.snk.next = some .ack) :
    exec .snkAck s = .next (advance p k (takeReply (some b) s)) := by
  simp [exec, execSnkAck, h.phase_ne_idle, hack, sinkAck_offering h]

/-- A failing write (R147) ends the command, with `W[k]` in the sink or not (R60). -/
theorem exec_snkErr {e : SnkErr} {landed : Bool} (h : Offering s p k b)
    (herr : s.encCh.snk.next = some (.err e landed)) :
    exec (.snkErr e) s = .next
      { s with
        enc := Enc.idle
        encCh := { s.encCh with
          snk := { s.encCh.snk.pop with
            taken := s.encCh.snk.taken ++ (if landed then [b] else []) }
          res := s.encCh.res ++ [.snkErr e] } } := by
  have hrun : exec (.snkErr e) s =
      .next (respondEnc (.snkErr e) (takeReply (if landed then some b else none) s)) := by
    simp [exec, execSnkErr, herr, h.phase_ne_idle, sinkErr, withOffer_of_offer h.pkt h.index h.byte]
  rw [hrun]
  cases landed with
  | true => rfl
  | false => simp [respondEnc, takeReply, State.setEnc, State.setEncCh, Sink.pop]

/-- The two sequences ENC writes, each named by its phase. -/
theorem Offering.of_writing {w : List Byte}
    (hw : (s.enc.phase = .emit ∧ w = frame p) ∨
      (s.enc.phase = .reject ∧ w = [DLE, p.id].take s.params.rejectLen.val))
    (hpkt : s.enc.pkt = some p) (hk : s.enc.k = some k) (hb : w[k]? = some b) :
    w = wire s.params s.enc.phase p ∧ Offering s p k b := by
  have hwire : w = wire s.params s.enc.phase p := by
    rcases hw with ⟨hph, rfl⟩ | ⟨hph, rfl⟩ <;> rw [hph] <;> rfl
  exact ⟨hwire, hpkt, hk, hwire ▸ hb⟩

end

/-! ### The statements, row by row -/

/-- Settles O22: an encodable packet selects ENCODE, which latches it. -/
theorem encodeLatchesThePacket : Obligations.EncodeLatchesThePacket := by
  intro s p hdle hetx hph hcmd
  have hp : p.encodable = true := encodable_iff.2 ⟨hdle, hetx⟩
  exact ⟨by rw [fetchEnc_idle hph hcmd, encodeRow_of_encodable hp], exec_encode_idle hp hph hcmd⟩

/-- Settles O23: a reserved id selects ENCODE.REJECT, whose effect `REJECT_PREFIX_LEN` decides. -/
theorem encodeRejectRefusesAReservedId : Obligations.EncodeRejectRefusesAReservedId := by
  intro s p hid hph hcmd
  have hp : p.encodable = false := not_encodable_iff.2 hid
  exact ⟨by rw [fetchEnc_idle hph hcmd, encodeRow_of_not_encodable hp],
    exec_encodeReject_idle hp hph hcmd⟩

/-- Settles O25: `Ack` selects SNK.ACK in both phases, and the end of `W` decides what follows it. -/
theorem sinkAckAdvancesTheFrame : Obligations.SinkAckAdvancesTheFrame := by
  intro s p k b w hw hpkt hk hb hack
  obtain ⟨rfl, hoffer⟩ := Offering.of_writing hw hpkt hk hb
  refine ⟨fetchEnc_offering hoffer hack, ?_⟩
  rw [exec_snkAck hoffer hack, advance_takeReply]
  rfl

/-- Settles O26: `Err(e)` selects SNK.ERR in both phases, with the same `e`. -/
theorem sinkErrorAbortsTheEncode : Obligations.SinkErrorAbortsTheEncode := by
  intro s p k b w e landed hw hpkt hk hb herr
  obtain ⟨-, hoffer⟩ := Offering.of_writing hw hpkt hk hb
  exact ⟨fetchEnc_offering hoffer herr, exec_snkErr hoffer herr⟩

end Sys2Proof.Machine
end

section
/-! The wire tokens of a frame (R143 to R145): which token stands at its start and behind a stuffed part of
its data, and the two transfers of a token of two bytes. -/

namespace Sys2Proof.Machine

/-! ### The frame behind a stuffed part of the data -/

theorem length_frame (p : Packet) : (frame p).length = (stuff p.data).length + 4 := by simp

section
variable {p : Packet} {a r : List Byte}

theorem frame_drop_stuff (h : p.data = a ++ r) :
    (frame p).drop (2 + (stuff a).length) = stuff r ++ [DLE, ETX] := by
  rw [frame_eq, h, stuff_append, Nat.add_comm]
  simp

theorem frame_getElem?_stuff (h : p.data = a ++ r) (i : Nat) :
    (frame p)[2 + (stuff a).length + i]? = (stuff r ++ [DLE, ETX])[i]? := by
  rw [← frame_drop_stuff h, List.getElem?_drop]

theorem bodyBoundary_stuff (a r : List Byte) : bodyBoundary (a ++ r) (stuff a).length = true := by
  induction a with
  | nil => cases r <;> rfl
  | cons d a ih => simp [bodyBoundary, ih]

theorem tokenAt_zero (hid : isOther p.id = true) : tokenAt p 0 = some (.encTokenStart p.id) := by
  simp [tokenAt, tokenBoundary, decodeRow, startToken, Decoded.instr?, hid]

/-- Behind a stuffed part of the data stands the token that the rest of the frame begins with. -/
theorem tokenAt_stuff (h : p.data = a ++ r) :
    tokenAt p (2 + (stuff a).length) = (bodyToken (stuff r ++ [DLE, ETX])).instr? := by
  have hboundary : tokenBoundary p (2 + (stuff a).length) = true := by
    rw [tokenBoundary, if_neg (by omega), Nat.add_sub_cancel_left, h, bodyBoundary_stuff]
  rw [tokenAt, if_pos hboundary, frame_drop_stuff h, if_neg (by omega), decodeRow]

end

/-! ### The transfers of one token -/

section
variable {s : State} {p : Packet} {k : Nat} {b c : Byte}

theorem writeToken_due {i : Instr} (h : tokenDue s = some i) :
    writeToken i s = writeBytes (encode i).length s := by
  simp [writeToken, h]

theorem tokenDue_emit (h : s.enc = { phase := .emit, pkt := some p, k := some k }) :
    tokenDue s = tokenAt p k := by
  simp [tokenDue, h]

theorem Offering.of_emit (h : s.enc = { phase := .emit, pkt := some p, k := some k })
    (hb : (frame p)[k]? = some b) : Offering s p k b := by
  constructor <;> rw [h]
  exact hb

theorem writeBytes_ack {t : State} (n : Nat) (hack : s.encCh.snk.next = some .ack)
    (ht : sinkAck s = .next t) : writeBytes (n + 1) s = writeBytes n t := by
  simp [writeBytes, hack, ht]

theorem Sink.put_pop_put (q : Sink) (b c : Byte) :
    (q.pop.put b).pop.put c = { q.pop.pop with taken := q.taken ++ [b, c] } := by
  simp [Sink.put, Sink.pop]

/-- Two transfers on a sink that takes both bytes, `W[k]` and `W[k + 1]`, and what follows them (R146). -/
theorem writeBytes_two_acks (hb : Offering s p k b)
    (hc : (wire s.params s.enc.phase p)[k + 1]? = some c)
    (hack : s.encCh.snk.next = some .ack) (hack' : s.encCh.snk.pop.next = some .ack) :
    writeBytes 2 s = .next
      (if k + 2 < (wire s.params s.enc.phase p).length then
        { s with
          enc := { s.enc with k := some (k + 2) }
          encCh := { s.encCh with
            snk := { s.encCh.snk.pop.pop with taken := s.encCh.snk.taken ++ [b, c] } } }
      else
        { s with
          enc := Enc.idle
          encCh := { s.encCh with
            snk := { s.encCh.snk.pop.pop with taken := s.encCh.snk.taken ++ [b, c] }
            res := s.encCh.res ++ [if s.enc.phase = .emit then .ok else .invalidId p.id] } }) := by
  obtain ⟨hmore, -⟩ := List.getElem?_eq_some_iff.1 hc
  have hack₁ : (offerNext k b s).encCh.snk.next = some .ack := hack'
  rw [writeBytes_ack 1 hack (sinkAck_of_more hb hmore),
    writeBytes_ack 0 hack₁ (sinkAck_offering (hb.next hc)), advance_takeReply]
  simp only [offerNext, Sink.put_pop_put]
  rfl

end

/-! ### The statements -/

/-- Settles O27: the start pair stands at index 0, and both its bytes lie within the frame. -/
theorem startTokenWritesDleAndId : Obligations.StartTokenWritesDleAndId := by
  intro s p hdle hetx henc hack hack'
  have hdue : tokenDue s = some (.encTokenStart p.id) := by
    rw [tokenDue_emit henc, tokenAt_zero (isOther_iff.2 ⟨hdle, hetx⟩)]
  have hfirst : Offering s p 0 DLE := .of_emit henc rfl
  have hsecond : (wire s.params s.enc.phase p)[1]? = some p.id := by rw [henc]; rfl
  have hmore : 0 + 2 < (wire s.params s.enc.phase p).length := by
    rw [henc, wire_emit, length_frame]; omega
  rw [exec, execEncTokenStart, writeToken_due hdue, encode, List.length_cons, List.length_singleton,
    writeBytes_two_acks hfirst hsecond hack hack', if_pos hmore]
  rfl

/-- Settles O30: behind all of the stuffed data stands the terminator pair, the last bytes of the frame. -/
theorem terminatorTokenEndsTheFrame : Obligations.TerminatorTokenEndsTheFrame := by
  intro s p henc hack hack'
  have hdata : p.data = p.data ++ [] := (List.append_nil _).symm
  have hdue : tokenDue s = some .encTokenTerm := by
    rw [tokenDue_emit henc, tokenAt_stuff hdata]; rfl
  have hfirst : Offering s p (2 + (stuff p.data).length) DLE :=
    .of_emit henc (frame_getElem?_stuff hdata 0)
  have hsecond : (wire s.params s.enc.phase p)[2 + (stuff p.data).length + 1]? = some ETX := by
    rw [henc]; exact frame_getElem?_stuff hdata 1
  have hlast : ¬ 2 + (stuff p.data).length + 2 < (wire s.params s.enc.phase p).length := by
    rw [henc, wire_emit, length_frame]; omega
  have hemit : s.enc.phase = .emit := by rw [henc]
  rw [exec, execEncTokenTerm, writeToken_due hdue, encode, List.length_cons, List.length_singleton,
    writeBytes_two_acks hfirst hsecond hack hack', if_neg hlast, if_pos hemit]
  rfl

end Sys2Proof.Machine
end
section
/-! Selection (R88): in a context that admits it a row is read from its own event, so a row the decoder
answers is the only one; the bytes of a wire token are read whatever follows them. -/

namespace Sys2Proof.Machine

variable {c : Ctx} {i : Instr}

/-! ### The event of a row selects the row -/

/-- A wire token is read from its bytes, whatever follows them (R143 to R145). -/
theorem decodeRow_wire_append {bs : List Byte} (hwf : i.wf = true) (hadm : admits c i = true)
    (hev : eventOf i = .wire bs) :
    encode i = bs ∧ ∀ r : List Byte, decodeRow c (.wire (bs ++ r)) = .row i := by
  cases i with
  | encTokenStart id =>
    cases hev
    obtain rfl : c = .tokenStart := of_decide_eq_true hadm
    have hid : isOther id = true := hwf
    exact ⟨rfl, fun r => by simp [decodeRow, startToken, hid]⟩
  | encTokenLit d =>
    cases hev
    obtain rfl : c = .tokenBody := of_decide_eq_true hadm
    have hd : d ≠ DLE := of_decide_eq_true hwf
    exact ⟨rfl, fun r => by simp [decodeRow, bodyToken, hd]⟩
  | encTokenEsc =>
    cases hev
    obtain rfl : c = .tokenBody := of_decide_eq_true hadm
    exact ⟨rfl, fun _ => rfl⟩
  | encTokenTerm =>
    cases hev
    obtain rfl : c = .tokenBody := of_decide_eq_true hadm
    exact ⟨rfl, fun _ => rfl⟩
  | _ => nomatch hev

/-- In `SCAN` and in `BODY`, whatever the flag, an answer that is no byte selects the same row. -/
theorem decodeRow_no_byte {a : SrcAnswer} (hrow : ∀ byteRow, srcRow byteRow a = i)
    (hc : c = .scan false ∨ c = .scan true ∨ c = .body false ∨ c = .body true) :
    decodeRow c (.src a) = .row i := by
  rcases hc with rfl | rfl | rfl | rfl <;> exact congrArg Decoded.row (hrow _)

/-- A row is read from its event in every context that admits it. -/
theorem decodeRow_eventOf (hwf : i.wf = true) (hadm : admits c i = true) :
    decodeRow c (eventOf i) = .row i := by
  have hwire : ∀ bs, eventOf i = .wire bs → decodeRow c (eventOf i) = .row i := fun bs hev => by
    simpa [hev] using (decodeRow_wire_append hwf hadm hev).2 []
  cases i with
  | decode => obtain rfl : c = .decIdle := of_decide_eq_true hadm; rfl
  | scanDle => rcases (of_decide_eq_true hadm : c = .scan false ∨ c = .scan true) with rfl | rfl <;> rfl
  | scanEtx => rcases (of_decide_eq_true hadm : c = .scan false ∨ c = .scan true) with rfl | rfl <;> rfl
  | scanSkip b =>
    obtain rfl : c = .scan false := of_decide_eq_true hadm
    exact congrArg Decoded.row (scanRow_other hwf false)
  | scanStart b =>
    obtain rfl : c = .scan true := of_decide_eq_true hadm
    exact congrArg Decoded.row (scanRow_other hwf true)
  | bodyDle => obtain rfl : c = .body false := of_decide_eq_true hadm; rfl
  | bodyEsc => obtain rfl : c = .body true := of_decide_eq_true hadm; rfl
  | bodyTerm => obtain rfl : c = .body true := of_decide_eq_true hadm; rfl
  | bodyEtxlit => obtain rfl : c = .body false := of_decide_eq_true hadm; rfl
  | bodyDrop b =>
    obtain rfl : c = .body true := of_decide_eq_true hadm
    exact congrArg Decoded.row (bodyRow_other hwf true)
  | bodyLit b =>
    obtain rfl : c = .body false := of_decide_eq_true hadm
    exact congrArg Decoded.row (bodyRow_other hwf false)
  | srcEos => exact decodeRow_no_byte (fun _ => rfl) (of_decide_eq_true hadm)
  | srcErr e => exact decodeRow_no_byte (fun _ => rfl) (of_decide_eq_true hadm)
  | encode p =>
    obtain rfl : c = .encIdle := of_decide_eq_true hadm
    exact congrArg Decoded.row (encodeRow_of_encodable hwf)
  | encodeReject p =>
    obtain rfl : c = .encIdle := of_decide_eq_true hadm
    exact congrArg Decoded.row (encodeRow_of_not_encodable (by simpa [Instr.wf] using hwf))
  | snkAck => rcases (of_decide_eq_true hadm : c = .emit ∨ c = .reject) with rfl | rfl <;> rfl
  | snkErr e => rcases (of_decide_eq_true hadm : c = .emit ∨ c = .reject) with rfl | rfl <;> rfl
  | encTokenStart id => exact hwire _ rfl
  | encTokenLit d => exact hwire _ rfl
  | encTokenEsc => exact hwire _ rfl
  | encTokenTerm => exact hwire _ rfl

/-- The byte that selects a row of DEC is the one the encoder writes for it. -/
theorem encode_of_eventOf_byte {b : Byte} (hev : eventOf i = .src (.byte b)) : encode i = [b] := by
  cases i <;> cases hev <;> rfl

/-- Settles O1: the row is read from its event, a byte row's byte is its encoding, and a wire token is read
whatever follows it. -/
theorem decodeOfEncodedRowIsTheRow : Obligations.DecodeOfEncodedRowIsTheRow :=
  fun _ _ hwf hadm =>
    ⟨decodeRow_eventOf hwf hadm, fun _ => encode_of_eventOf_byte, fun _ => decodeRow_wire_append hwf hadm⟩

/-! ### One row for each transfer -/

/-- The row `i` is the decoder's answer to `e`, and one the context admits and `e` selects. -/
structure Selects (c : Ctx) (e : Event) (i : Instr) : Prop where
  decoded : decodeRow c e = .row i
  wf : i.wf = true
  inContext : admits c i = true
  event : eventOf i = e

/-- A selected row is the only one: any other would be decoded from the same event. -/
theorem Selects.unique {e : Event} {j : Instr} (h : Selects c e i) (hwf : j.wf = true)
    (hadm : admits c j = true) (hev : eventOf j = e) : j = i := by
  have hj := decodeRow_eventOf hwf hadm
  rw [hev, h.decoded] at hj
  exact (Decoded.row.inj hj).symm

theorem selects_scan (prev : Bool) (a : SrcAnswer) :
    Selects (.scan prev) (.src a) (srcRow (scanRow prev) a) := by
  cases a with
  | eos => cases prev <;> exact ⟨rfl, rfl, rfl, rfl⟩
  | err e => cases prev <;> exact ⟨rfl, rfl, rfl, rfl⟩
  | byte b =>
    rcases classOf_cases b with ⟨rfl, -⟩ | ⟨rfl, -⟩ | ⟨hb, -⟩
    · cases prev <;> exact ⟨rfl, rfl, rfl, rfl⟩
    · cases prev <;> exact ⟨rfl, rfl, rfl, rfl⟩
    · rw [srcRow, scanRow_other hb]
      cases prev <;> exact ⟨congrArg Decoded.row (scanRow_other hb _), hb, rfl, rfl⟩

theorem selects_body (odd : Bool) (a : SrcAnswer) :
    Selects (.body odd) (.src a) (srcRow (bodyRow odd) a) := by
  cases a with
  | eos => cases odd <;> exact ⟨rfl, rfl, rfl, rfl⟩
  | err e => cases odd <;> exact ⟨rfl, rfl, rfl, rfl⟩
  | byte b =>
    rcases classOf_cases b with ⟨rfl, -⟩ | ⟨rfl, -⟩ | ⟨hb, -⟩
    · cases odd <;> exact ⟨rfl, rfl, rfl, rfl⟩
    · cases odd <;> exact ⟨rfl, rfl, rfl, rfl⟩
    · rw [srcRow, bodyRow_other hb]
      cases odd <;> exact ⟨congrArg Decoded.row (bodyRow_other hb _), hb, rfl, rfl⟩

theorem selects_encode (p : Packet) : Selects .encIdle (.cmdEncode p) (encodeRow p) := by
  cases hp : p.encodable with
  | true =>
    rw [encodeRow_of_encodable hp]
    exact ⟨congrArg Decoded.row (encodeRow_of_encodable hp), hp, rfl, rfl⟩
  | false =>
    rw [encodeRow_of_not_encodable hp]
    exact ⟨congrArg Decoded.row (encodeRow_of_not_encodable hp), by simpa [Instr.wf] using hp, rfl, rfl⟩

theorem selects_snk (hc : c = .emit ∨ c = .reject) (a : SnkAnswer) : Selects c (.snk a) (snkRow a) := by
  rcases hc with rfl | rfl <;> cases a <;> exact ⟨rfl, rfl, rfl, rfl⟩

/-- Settles O2: each kind of transfer selects the row its table names, and a selected row is the only
one. -/
theorem everyTransferSelectsExactlyOneRow : Obligations.EveryTransferSelectsExactlyOneRow := by
  intro c e h
  have hrow : ∃ i, Selects c e i := by
    rcases h with ⟨rfl, rfl⟩ | ⟨f, a, rfl | rfl, rfl⟩ | ⟨rfl, p, rfl⟩ | ⟨hc, a, rfl⟩
    · exact ⟨.decode, rfl, rfl, rfl, rfl⟩
    · exact ⟨_, selects_scan f a⟩
    · exact ⟨_, selects_body f a⟩
    · exact ⟨_, selects_encode p⟩
    · exact ⟨_, selects_snk hc a⟩
  obtain ⟨i, hi⟩ := hrow
  exact ⟨i, hi.decoded, hi.wf, hi.inContext, hi.event, fun _ => hi.unique⟩

/-- Settles O3: each sample is evaluated by the decoder. -/
theorem sampleBytesDecodeToTheirRows : Obligations.SampleBytesDecodeToTheirRows := by
  refine ⟨?_, ?_, ?_, ?_, ?_, ?_, ?_, ?_, ?_, ?_, ?_⟩ <;> rfl

end Sys2Proof.Machine
end

section
/-! The turn of DEC (R100): everything it can do, as a relation on DEC's registers and channels alone. Every
statement about the steps of DEC is read off this relation. -/

namespace Sys2Proof.Machine

/-! ### What a turn of DEC can do -/

/-- DEC's registers and channels before a turn and after it, with parameters `c`: it waits, accepts a
`DECODE` (R101), moves in `SCAN` (R102 to R105) or in `BODY` (R106, R107, R109 to R111), or delivers a
result (R108, R112 to R114). -/
inductive DecMove (c : Params) (d : Dec) (ch : DecCh) : Dec → DecCh → Prop where
  | wait (h : d.phase = .idle ∨ ch.src.next = none) : DecMove c d ch d ch
  | accept (hph : d.phase = .idle) : DecMove c d ch (.inScan false) { ch with cmd := false }
  | scan (prev : Bool) (hph : d.phase = .scan) :
      DecMove c d ch { d with prevDLE := prev } { ch with src := ch.src.pop }
  | start (b : Byte) (hph : d.phase = .scan) (hb : isOther b = true) :
      DecMove c d ch { d with phase := .body, dleOdd := false, id := some b, data := [] }
        { ch with src := ch.src.pop }
  | withhold (hph : d.phase = .body) (hodd : d.dleOdd = false) (hsrc : ch.src.next = some (.byte DLE)) :
      DecMove c d ch { d with dleOdd := true } { ch with src := ch.src.pop }
  | store (b : Byte) (hph : d.phase = .body) (hsrc : ch.src.next = some (.byte b))
      (hdle : b = DLE → d.dleOdd = true) (hetx : b = ETX → d.dleOdd = false)
      (hroom : c.maxData ≠ some d.data.length) :
      DecMove c d ch { d with data := d.data ++ [b], dleOdd := false } { ch with src := ch.src.pop }
  | deliver (x : DecResult) (hph : d.phase ≠ .idle) (hx : decOk c d = true → decResultOk c x = true) :
      DecMove c d ch .idle { ch with src := ch.src.pop, res := ch.res ++ [x] }

/-- From parameters `c`, registers `d` and channels `ch`, a turn of DEC gives `d'` and `ch'` and changes
nothing else, whatever the rest of the state holds. -/
def DecTurn (c : Params) (d : Dec) (ch : DecCh) (d' : Dec) (ch' : DecCh) : Prop :=
  ∀ s : State, s.params = c → s.dec = d → s.decCh = ch →
    turn .dec s = .next { s with dec := d', decCh := ch' }

/-! ### The rows a turn runs -/

theorem turn_dec_row {s : State} {i : Instr} (h : fetchDec s = some i) : turn .dec s = exec i s := by
  rw [turn, h, runRow]

theorem turn_dec_waits {s : State} (h : fetchDec s = none) : turn .dec s = .next s := by
  rw [turn, h, runRow]

theorem fetchDec_no_command {s : State} (hph : s.dec.phase = .idle) (hcmd : s.decCh.cmd = false) :
    fetchDec s = none := by
  simp [fetchDec, decEvent, hph, hcmd]

theorem fetchDec_no_answer {s : State} (hph : s.dec.phase ≠ .idle) (hsrc : s.decCh.src.next = none) :
    fetchDec s = none := by
  simp [fetchDec, decEvent, hph, hsrc]

/-- A body byte that is neither the first DLE of a pair nor the terminator's ETX is stored, and the parity is
even behind it (R107, R109 to R111). -/
theorem turn_dec_store {s : State} {b : Byte} (hph : s.dec.phase = .body)
    (hsrc : s.decCh.src.next = some (.byte b)) (hdle : b = DLE → s.dec.dleOdd = true)
    (hetx : b = ETX → s.dec.dleOdd = false) :
    turn .dec s = .next (setDleOdd false (storeByte b (takeAnswer s))) := by
  have hans : answered .body (.byte b) s = true := answered_iff.2 ⟨hph, hsrc⟩
  have hkeep (hodd : s.dec.dleOdd = false) :
      setDleOdd false (storeByte b (takeAnswer s)) = storeByte b (takeAnswer s) :=
    setDleOdd_self (storeByte_dleOdd_false hodd)
  have hfetch := fetchDec_body hph hsrc
  rcases classOf_cases b with ⟨rfl, -⟩ | ⟨rfl, -⟩ | ⟨hb, -⟩
  · rw [hdle rfl] at hfetch
    rw [turn_dec_row hfetch]
    exact exec_bodyEsc hans (hdle rfl)
  · rw [hetx rfl] at hfetch
    rw [turn_dec_row hfetch, hkeep (hetx rfl)]
    exact exec_bodyEtxlit hans (hetx rfl)
  · rw [srcRow, bodyRow_other hb] at hfetch
    cases hodd : s.dec.dleOdd with
    | true => rw [hodd] at hfetch; exact (turn_dec_row hfetch).trans (exec_bodyDrop hans hb hodd)
    | false =>
      rw [hodd] at hfetch
      rw [turn_dec_row hfetch, hkeep hodd]
      exact exec_bodyLit hans hb hodd

/-! ### Each move, phase by phase -/

section
variable {c : Params} {d : Dec} {ch : DecCh}

theorem decTurn_wait (h : ∀ s : State, s.dec = d → s.decCh = ch → fetchDec s = none) :
    DecTurn c d ch d ch := by
  rintro s - rfl rfl
  exact turn_dec_waits (h s rfl rfl)

/-- A failing answer ends the command in both phases (R112, R113). -/
theorem decMove_abort {a : SrcAnswer} {x : DecResult} (hph : d.phase = .scan ∨ d.phase = .body)
    (hsrc : ch.src.next = some a) (hx : (a = .eos ∧ x = .eos) ∨ ∃ e, a = .err e ∧ x = .srcErr e) :
    DecMove c d ch .idle { ch with src := ch.src.pop, res := ch.res ++ [x] } ∧
      DecTurn c d ch .idle { ch with src := ch.src.pop, res := ch.res ++ [x] } := by
  have hbusy : d.phase ≠ .idle := by rcases hph with h | h <;> simp [h]
  rcases hx with ⟨rfl, rfl⟩ | ⟨e, rfl, rfl⟩
  · refine ⟨.deliver _ hbusy fun _ => rfl, ?_⟩
    rintro s - rfl rfl
    obtain ⟨hfetch, hexec⟩ := sourceEndAbortsTheDecode s hph hsrc
    exact (turn_dec_row hfetch).trans hexec
  · refine ⟨.deliver _ hbusy fun _ => rfl, ?_⟩
    rintro s - rfl rfl
    obtain ⟨hfetch, hexec⟩ := sourceErrorAbortsTheDecode s e hph hsrc
    exact (turn_dec_row hfetch).trans hexec

theorem decMove_idle (hph : d.phase = .idle) :
    ∃ d' ch', DecMove c d ch d' ch' ∧ DecTurn c d ch d' ch' := by
  cases hcmd : ch.cmd with
  | true =>
    refine ⟨_, _, .accept hph, ?_⟩
    rintro s - rfl rfl
    exact (turn_dec_row (fetchDec_idle hph hcmd)).trans (exec_decode_idle hph)
  | false =>
    refine ⟨d, ch, .wait (.inl hph), decTurn_wait ?_⟩
    rintro s rfl rfl
    exact fetchDec_no_command hph hcmd

/-- A byte read in `SCAN` (R102 to R105). -/
theorem decMove_scan_byte {b : Byte} (hph : d.phase = .scan) (hsrc : ch.src.next = some (.byte b)) :
    ∃ d' ch', DecMove c d ch d' ch' ∧ DecTurn c d ch d' ch' := by
  rcases classOf_cases b with ⟨rfl, -⟩ | ⟨rfl, -⟩ | ⟨hb, -⟩
  · refine ⟨_, _, .scan true hph, ?_⟩
    rintro s - rfl rfl
    obtain ⟨hfetch, hexec⟩ := scanDleRemembersTheDle s hph hsrc
    exact (turn_dec_row hfetch).trans hexec
  · refine ⟨_, _, .scan false hph, ?_⟩
    rintro s - rfl rfl
    obtain ⟨hfetch, hexec⟩ := scanEtxForgetsTheDle s hph hsrc
    exact (turn_dec_row hfetch).trans hexec
  · obtain ⟨hdle, hetx⟩ := isOther_iff.1 hb
    cases hprev : d.prevDLE with
    | true =>
      refine ⟨_, _, .start b hph hb, ?_⟩
      rintro s - rfl rfl
      obtain ⟨hfetch, hexec⟩ := scanStartAdoptsTheId s b hdle hetx hph hprev hsrc
      exact (turn_dec_row hfetch).trans hexec
    | false =>
      refine ⟨{ d with prevDLE := d.prevDLE }, _, .scan d.prevDLE hph, ?_⟩
      rintro s - rfl rfl
      obtain ⟨hfetch, hexec⟩ := scanSkipDiscardsTheByte s b hdle hetx hph hprev hsrc
      exact (turn_dec_row hfetch).trans hexec

/-- A stored byte, or the Overflow of R114. -/
theorem decMove_store {b : Byte} (hph : d.phase = .body) (hsrc : ch.src.next = some (.byte b))
    (hdle : b = DLE → d.dleOdd = true) (hetx : b = ETX → d.dleOdd = false) :
    ∃ d' ch', DecMove c d ch d' ch' ∧ DecTurn c d ch d' ch' := by
  by_cases hfull : c.maxData = some d.data.length
  · refine ⟨_, _, .deliver .overflow (by simp [hph]) fun _ => by simp [decResultOk, hfull], ?_⟩
    rintro s rfl rfl rfl
    rw [turn_dec_store hph hsrc hdle hetx, setDleOdd_false_storeByte_takeAnswer, if_pos hfull]
  · refine ⟨_, _, .store b hph hsrc hdle hetx hfull, ?_⟩
    rintro s rfl rfl rfl
    rw [turn_dec_store hph hsrc hdle hetx, setDleOdd_false_storeByte_takeAnswer, if_neg hfull]

/-- The packet a terminator delivers from registers that meet the invariant (R30, R27). -/
theorem decResultOk_of_body {id : Byte} (hph : d.phase = .body) (hid : d.id = some id)
    (h : decOk c d = true) : decResultOk c (.ok { id := id, data := d.data }) = true := by
  simpa [decOk, hph, hid, decResultOk, Packet.encodable] using h

/-- A terminator pair's ETX delivers the packet (R108), or faults where no id is held (I12). -/
theorem decMove_term (hph : d.phase = .body) (hsrc : ch.src.next = some (.byte ETX))
    (hodd : d.dleOdd = true) :
    (∃ d' ch', DecMove c d ch d' ch' ∧ DecTurn c d ch d' ch') ∨
      (d.id = none ∧ ∀ s : State, s.dec = d → s.decCh = ch → turn .dec s = .fault (.noValue .decId)) := by
  cases hid : d.id with
  | some id =>
    refine .inl ⟨_, _, .deliver _ (by simp [hph]) (decResultOk_of_body hph hid), ?_⟩
    rintro s - rfl rfl
    obtain ⟨hfetch, hexec⟩ := bodyTermDeliversThePacket s id hph hodd hid hsrc
    exact (turn_dec_row hfetch).trans hexec
  | none =>
    refine .inr ⟨rfl, ?_⟩
    rintro s rfl rfl
    have hfetch := fetchDec_body hph hsrc
    rw [hodd] at hfetch
    have hans : answered .body (.byte ETX) s = true := answered_iff.2 ⟨hph, hsrc⟩
    rw [turn_dec_row hfetch]
    show execBodyTerm s = _
    simp [execBodyTerm, hans, hodd, hid]

/-- A byte read in `BODY` (R106 to R111). -/
theorem decMove_body_byte {b : Byte} (hph : d.phase = .body) (hsrc : ch.src.next = some (.byte b)) :
    (∃ d' ch', DecMove c d ch d' ch' ∧ DecTurn c d ch d' ch') ∨
      (d.id = none ∧ ∀ s : State, s.dec = d → s.decCh = ch → turn .dec s = .fault (.noValue .decId)) := by
  by_cases hwithhold : b = DLE ∧ d.dleOdd = false
  · obtain ⟨rfl, hodd⟩ := hwithhold
    refine .inl ⟨_, _, .withhold hph hodd hsrc, ?_⟩
    rintro s - rfl rfl
    obtain ⟨hfetch, hexec⟩ := bodyDleIsWithheld s hph hodd hsrc
    exact (turn_dec_row hfetch).trans hexec
  · by_cases hterm : b = ETX ∧ d.dleOdd = true
    · obtain ⟨rfl, hodd⟩ := hterm
      exact decMove_term hph hsrc hodd
    · exact .inl (decMove_store hph hsrc (by simpa using hwithhold) (by simpa using hterm))

/-- Every turn of DEC is a move of DEC's registers and channels alone, or the fault of a terminator in a
body that holds no id. -/
theorem decMove_total (c : Params) (d : Dec) (ch : DecCh) :
    (∃ d' ch', DecMove c d ch d' ch' ∧ DecTurn c d ch d' ch') ∨
      (d.phase = .body ∧ d.id = none ∧
        ∀ s : State, s.dec = d → s.decCh = ch → turn .dec s = .fault (.noValue .decId)) := by
  by_cases hidle : d.phase = .idle
  · exact .inl (decMove_idle hidle)
  · have hbusy : d.phase = .scan ∨ d.phase = .body := by cases hph : d.phase <;> simp_all
    cases hsrc : ch.src.next with
    | none =>
      refine .inl ⟨d, ch, .wait (.inr hsrc), decTurn_wait ?_⟩
      rintro s rfl rfl
      exact fetchDec_no_answer hidle hsrc
    | some a =>
      cases a with
      | eos => exact .inl ⟨_, _, decMove_abort hbusy hsrc (.inl ⟨rfl, rfl⟩)⟩
      | err e => exact .inl ⟨_, _, decMove_abort hbusy hsrc (.inr ⟨e, rfl, rfl⟩)⟩
      | byte b =>
        rcases hbusy with hph | hph
        · exact .inl (decMove_scan_byte hph hsrc)
        · exact (decMove_body_byte hph hsrc).imp_right fun h => ⟨hph, h⟩

end

/-- A turn of DEC that answers next is a move, and nothing else changes. -/
theorem turn_dec_next {s t : State} (h : turn .dec s = .next t) :
    DecMove s.params s.dec s.decCh t.dec t.decCh ∧ t = { s with dec := t.dec, decCh := t.decCh } := by
  rcases decMove_total s.params s.dec s.decCh with ⟨d', ch', hmove, hturn⟩ | ⟨-, -, hfault⟩
  · rw [hturn s rfl rfl rfl] at h
    cases h
    exact ⟨hmove, rfl⟩
  · simp [hfault s rfl rfl] at h

/-- With registers that meet the invariant a turn of DEC is a move of DEC's part alone. -/
theorem decTurn_of_decOk {c : Params} {d : Dec} (h : decOk c d = true) (ch : DecCh) :
    ∃ d' ch', DecTurn c d ch d' ch' := by
  rcases decMove_total c d ch with ⟨d', ch', -, hturn⟩ | ⟨hph, hid, -⟩
  · exact ⟨d', ch', hturn⟩
  · simp [decOk, hph, hid] at h

/-! ### The parity of a DLE run -/

/-- The next value of the source's counter, by the class of the byte (R116). -/
theorem dleRunNext_dle (resets : Bool) (n : Nat) : dleRunNext resets n DLE = n + 1 := rfl

theorem dleRunNext_etx (resets : Bool) (n : Nat) :
    dleRunNext resets n ETX = if resets then 0 else n := rfl

theorem dleRunNext_other (resets : Bool) (n : Nat) {b : Byte} (h : isOther b = true) :
    dleRunNext resets n b = 0 := by
  simp [dleRunNext, classOf_other h]

/-- A byte that is stored leaves the counter even. -/
theorem dleRunNext_stored_even {b : Byte} {n : Nat} (resets : Bool) (hdle : b = DLE → n % 2 = 1)
    (hetx : b = ETX → n % 2 = 0) : dleRunNext resets n b % 2 = 0 := by
  rcases classOf_cases b with ⟨rfl, -⟩ | ⟨rfl, -⟩ | ⟨hb, -⟩
  · have hn := hdle rfl
    rw [dleRunNext_dle]; omega
  · rw [dleRunNext_etx]
    cases resets with
    | true => rfl
    | false => exact hetx rfl
  · rw [dleRunNext_other _ _ hb]

/-- Settles O37: of the moves that stay in `BODY` on a byte, one withholds a DLE at even parity and the
other stores a byte that leaves the counter even. -/
theorem dleOddIsTheParityOfTheRun : Obligations.DleOddIsTheParityOfTheRun := by
  intro s t b n resets hturn hph hodd hsrc hstep hph'
  rw [step_turn hturn] at hstep
  have hmove := (turn_dec_next hstep).1
  simp only [State.setSched_params, State.setSched_dec, State.setSched_decCh] at hmove
  generalize t.dec = d', t.decCh = ch' at hmove hph' ⊢
  cases hmove with
  | wait h => simp [hph, hsrc] at h
  | accept h => simp [hph] at h
  | scan _ h => simp [hph] at h
  | start _ h => simp [hph] at h
  | withhold _ heven hdle =>
    obtain rfl : b = DLE := by simpa [hsrc] using hdle
    rw [hodd, decide_eq_false_iff_not] at heven
    rw [dleRunNext_dle]
    exact (decide_eq_true (by omega)).symm
  | store b' _ hb hdle hetx _ =>
    obtain rfl : b = b' := by simpa [hsrc] using hb
    rw [hodd] at hdle hetx
    have heven := dleRunNext_stored_even resets (fun h => of_decide_eq_true (hdle h))
      (fun h => by simpa using hetx h)
    exact (decide_eq_false (by omega)).symm
  | deliver x _ _ => simp [Dec.idle] at hph'

end Sys2Proof.Machine
end

section
/-! The wire tokens of a frame, all of them (R143 to R145): the bytes of a token stand where it is read, and
the tokens lie side by side from the start of the frame to its end. -/

namespace Sys2Proof.Machine

/-! ### A token read from bytes -/

/-- The start pair read from some bytes is what they begin with. -/
theorem startToken_row {bs : List Byte} {i : Instr} (h : startToken bs = .row i) :
    eventOf i = .wire (encode i) ∧ ∃ r, bs = encode i ++ r := by
  match bs, h with
  | b :: c :: r, h =>
    rw [startToken] at h
    split at h
    · rename_i hpair
      obtain ⟨rfl, -⟩ := hpair
      cases h
      exact ⟨rfl, r, rfl⟩
    · nomatch h

/-- A token behind the start pair read from some bytes is what they begin with. -/
theorem bodyToken_row {bs : List Byte} {i : Instr} (h : bodyToken bs = .row i) :
    eventOf i = .wire (encode i) ∧ ∃ r, bs = encode i ++ r := by
  match bs, h with
  | [b], h =>
    rw [bodyToken] at h
    split at h
    · nomatch h
    · cases h; exact ⟨rfl, [], rfl⟩
  | b :: c :: r, h =>
    rw [bodyToken] at h
    split at h
    · rename_i hb
      subst hb
      split at h
      · rename_i hc; subst hc; cases h; exact ⟨rfl, r, rfl⟩
      · split at h
        · rename_i hc; subst hc; cases h; exact ⟨rfl, r, rfl⟩
        · nomatch h
    · cases h; exact ⟨rfl, c :: r, rfl⟩

theorem decoded_instr? {x : Decoded} {i : Instr} : x.instr? = some i ↔ x = .row i := by
  cases x <;> simp [Decoded.instr?]

/-- The token that stands at an index: there is a boundary, and the rest of the frame is read there. -/
theorem tokenAt_some {p : Packet} {k : Nat} {i : Instr} :
    tokenAt p k = some i ↔
      tokenBoundary p k = true ∧
        decodeRow (if k = 0 then .tokenStart else .tokenBody) (.wire ((frame p).drop k)) = .row i := by
  unfold tokenAt
  split
  · rename_i hk; rw [decoded_instr?]; simp [hk]
  · rename_i hk; simp [hk]

/-- A token's bytes stand at its index in the frame. -/
theorem tokenAt_bytes {p : Packet} {k : Nat} {i : Instr} (h : tokenAt p k = some i) :
    eventOf i = .wire (encode i) ∧ ∃ r, (frame p).drop k = encode i ++ r := by
  obtain ⟨-, hrow⟩ := tokenAt_some.1 h
  by_cases hk : k = 0
  · rw [if_pos hk] at hrow; exact startToken_row hrow
  · rw [if_neg hk] at hrow; exact bodyToken_row hrow

theorem encode_length_pos {bs : List Byte} {i : Instr} (h : eventOf i = .wire bs) :
    0 < (encode i).length := by
  revert h
  cases i <;> simp [eventOf, encode]

/-- A token ends within the frame. -/
theorem tokenAt_le_length {p : Packet} {k : Nat} {i : Instr} (h : tokenAt p k = some i) :
    k + (encode i).length ≤ (frame p).length := by
  obtain ⟨hev, r, hr⟩ := tokenAt_bytes h
  have hlen := congrArg List.length hr
  rw [List.length_drop, List.length_append] at hlen
  have hpos := encode_length_pos hev
  omega

/-! ### One token for each byte -/

/-- The token that begins at index `k` of `stuff data ++ [DLE, ETX]` holds the byte at index `n`. -/
def BodyTokenHolds (data : List Byte) (k n : Nat) : Prop :=
  bodyBoundary data k = true ∧
    ∃ i, bodyToken ((stuff data ++ [DLE, ETX]).drop k) = .row i ∧ k ≤ n ∧ n < k + (encode i).length

/-- The first data byte is read back from its stuffed bytes. -/
theorem bodyToken_stuffByte (d : Byte) (r : List Byte) :
    ∃ i, bodyToken (stuffByte d ++ r) = .row i ∧ (encode i).length = (stuffByte d).length := by
  by_cases hd : d = DLE
  · subst hd; exact ⟨.encTokenEsc, rfl, rfl⟩
  · rw [stuffByte_of_ne hd]
    exact ⟨.encTokenLit d, by simp [bodyToken, hd], rfl⟩

theorem bodyTokenHolds_nil {k n : Nat} : BodyTokenHolds [] k n ↔ k = 0 ∧ n < 2 := by
  constructor
  · rintro ⟨hk, i, hrow, -, hn⟩
    obtain rfl : k = 0 := of_decide_eq_true hk
    cases hrow
    exact ⟨rfl, by simpa [encode] using hn⟩
  · rintro ⟨rfl, hn⟩
    exact ⟨rfl, .encTokenTerm, rfl, Nat.zero_le n, by simpa [encode] using hn⟩

/-- The first token holds the stuffed bytes of the first data byte, and the others are those of the rest. -/
theorem bodyTokenHolds_cons {d : Byte} {r : List Byte} {k n : Nat} :
    BodyTokenHolds (d :: r) k n ↔
      (k = 0 ∧ n < (stuffByte d).length) ∨
        ((stuffByte d).length ≤ k ∧ (stuffByte d).length ≤ n ∧
          BodyTokenHolds r (k - (stuffByte d).length) (n - (stuffByte d).length)) := by
  have hpos := stuffByte_length_pos d
  rcases Nat.eq_zero_or_pos k with rfl | hk
  · obtain ⟨i, hi, hlen⟩ := bodyToken_stuffByte d (stuff r ++ [DLE, ETX])
    have hread : bodyToken ((stuff (d :: r) ++ [DLE, ETX]).drop 0) = .row i := by simpa using hi
    constructor
    · rintro ⟨-, j, hj, -, hn⟩
      obtain rfl : i = j := Decoded.row.inj (hread.symm.trans hj)
      exact .inl ⟨rfl, by omega⟩
    · rintro (⟨-, hn⟩ | ⟨hle, -⟩)
      · exact ⟨rfl, i, hread, Nat.zero_le n, by omega⟩
      · omega
  · rcases Nat.lt_or_ge k (stuffByte d).length with hlt | hge
    · have hno : bodyBoundary (d :: r) k = false := by
        rw [bodyBoundary, if_neg (by omega), if_neg (by omega)]
      simp only [BodyTokenHolds, hno]
      constructor
      · rintro ⟨h, -⟩; nomatch h
      · rintro (⟨h, -⟩ | ⟨h, -⟩) <;> omega
    · have hboundary : bodyBoundary (d :: r) k = bodyBoundary r (k - (stuffByte d).length) := by
        rw [bodyBoundary, if_neg (by omega), if_pos hge]
      have hdrop : (stuff (d :: r) ++ [DLE, ETX]).drop k =
          (stuff r ++ [DLE, ETX]).drop (k - (stuffByte d).length) := by
        rw [stuff_cons, List.append_assoc, List.drop_append, List.drop_of_length_le hge,
          List.nil_append]
      simp only [BodyTokenHolds, hboundary, hdrop]
      constructor
      · rintro ⟨hb, i, hrow, hle, hn⟩
        exact .inr ⟨hge, by omega, hb, i, hrow, by omega, by omega⟩
      · rintro (⟨h, -⟩ | ⟨-, hn, hb, i, hrow, hle, hlt⟩)
        · omega
        · exact ⟨hb, i, hrow, by omega, by omega⟩

/-- Every byte behind the start pair lies in exactly one token. -/
theorem existsUnique_bodyTokenHolds (data : List Byte) {n : Nat} (hn : n < (stuff data).length + 2) :
    ∃! k, BodyTokenHolds data k n := by
  induction data generalizing n with
  | nil =>
    refine ⟨0, bodyTokenHolds_nil.2 ⟨rfl, by simpa using hn⟩, fun k hk => ?_⟩
    exact (bodyTokenHolds_nil.1 hk).1
  | cons d r ih =>
    rcases Nat.lt_or_ge n (stuffByte d).length with hlt | hge
    · refine ⟨0, bodyTokenHolds_cons.2 (.inl ⟨rfl, hlt⟩), fun k hk => ?_⟩
      rcases bodyTokenHolds_cons.1 hk with ⟨h, -⟩ | ⟨-, hle, -⟩
      · exact h
      · omega
    · have hrest : n - (stuffByte d).length < (stuff r).length + 2 := by
        rw [stuff_cons, List.length_append] at hn; omega
      obtain ⟨k, hk, hunique⟩ := ih hrest
      refine ⟨k + (stuffByte d).length, bodyTokenHolds_cons.2 (.inr ⟨by omega, hge, by simpa using hk⟩), ?_⟩
      intro m hm
      rcases bodyTokenHolds_cons.1 hm with ⟨-, hlt⟩ | ⟨hle, -, hm⟩
      · omega
      · have := hunique _ hm; omega

/-- The start pair holds the first two bytes of an encodable packet's frame, and the tokens of the body the
bytes behind it. -/
theorem tokenAt_holds_iff {p : Packet} (hid : isOther p.id = true) {k n : Nat} :
    (∃ i, tokenAt p k = some i ∧ k ≤ n ∧ n < k + (encode i).length) ↔
      (k = 0 ∧ n < 2) ∨ (2 ≤ k ∧ 2 ≤ n ∧ BodyTokenHolds p.data (k - 2) (n - 2)) := by
  rcases Nat.eq_zero_or_pos k with rfl | hk
  · simp [tokenAt_zero hid, encode]
  · rcases Nat.lt_or_ge k 2 with hlt | hge
    · have hno : tokenAt p k = none := by
        rw [tokenAt, tokenBoundary, if_pos hlt, decide_eq_false (by omega)]; rfl
      simp only [hno]
      constructor
      · rintro ⟨i, h, -⟩; nomatch h
      · rintro (⟨h, -⟩ | ⟨h, -⟩) <;> omega
    · have hboundary : tokenBoundary p k = bodyBoundary p.data (k - 2) := by
        rw [tokenBoundary, if_neg (by omega)]
      have hdrop : (frame p).drop k = (stuff p.data ++ [DLE, ETX]).drop (k - 2) := by
        obtain ⟨m, rfl⟩ := Nat.exists_eq_add_of_le' hge
        simp
      simp only [tokenAt_some, hboundary, hdrop, if_neg (Nat.pos_iff_ne_zero.1 hk), decodeRow,
        BodyTokenHolds]
      constructor
      · rintro ⟨i, ⟨hb, hrow⟩, hle, hn⟩
        exact .inr ⟨hge, by omega, hb, i, hrow, by omega, by omega⟩
      · rintro (⟨h, -⟩ | ⟨-, hn, hb, i, hrow, hle, hlt⟩)
        · omega
        · exact ⟨i, ⟨hb, hrow⟩, by omega, by omega⟩

/-- Settles O36: a token's bytes stand at its index, and each index lies in the start pair or in exactly one
token of the body. -/
theorem tokensSpellTheFrame : Obligations.TokensSpellTheFrame := by
  intro p hdle hetx
  have hid : isOther p.id = true := isOther_iff.2 ⟨hdle, hetx⟩
  refine ⟨fun k i h => (tokenAt_bytes h).2, fun n hn => ?_⟩
  simp only [tokenAt_holds_iff hid]
  rcases Nat.lt_or_ge n 2 with hlt | hge
  · refine ⟨0, .inl ⟨rfl, hlt⟩, ?_⟩
    rintro k (⟨h, -⟩ | ⟨-, h, -⟩)
    · exact h
    · omega
  · rw [length_frame] at hn
    obtain ⟨k, hk, hunique⟩ := existsUnique_bodyTokenHolds p.data (n := n - 2) (by omega)
    refine ⟨k + 2, .inr ⟨by omega, hge, hk⟩, ?_⟩
    rintro m (⟨-, h⟩ | ⟨hm, -, hholds⟩)
    · omega
    · have := hunique _ hholds; omega

/-! ### The tokens of the data -/

section
variable {s : State} {p : Packet} {j : Nat} {d : Byte}

theorem data_eq_take_cons (h : p.data[j]? = some d) :
    p.data = p.data.take j ++ d :: p.data.drop (j + 1) := by
  obtain ⟨hj, rfl⟩ := List.getElem?_eq_some_iff.1 h
  rw [List.cons_getElem_drop_succ, List.take_append_drop]

/-- The stuffed bytes of the data up to and with byte `j` end before the terminator pair. -/
theorem length_stuff_take_succ_lt (h : p.data[j]? = some d) :
    2 + (stuff (p.data.take j)).length + (stuffByte d).length < (frame p).length := by
  have hlen := congrArg (fun l => (stuff l).length) (data_eq_take_cons h)
  simp only [stuff_append, stuff_cons, List.length_append] at hlen
  rw [length_frame]; omega

end

/-- Settles O28: behind the stuffed bytes before it stands the literal, and the frame goes on behind it. -/
theorem literalTokenWritesTheByte : Obligations.LiteralTokenWritesTheByte := by
  intro s p j d hj hd henc hack
  have hsplit := data_eq_take_cons hj
  have hlit : stuffByte d = [d] := stuffByte_of_ne hd
  have hdue : tokenDue s = some (.encTokenLit d) := by
    rw [tokenDue_emit henc, tokenAt_stuff hsplit, stuff_cons, hlit]
    simp [bodyToken, Decoded.instr?, show d ≠ DLE from hd]
  have hoffer : Offering s p (2 + (stuff (p.data.take j)).length) d := by
    refine .of_emit henc ?_
    rw [← Nat.add_zero (2 + _), frame_getElem?_stuff hsplit, stuff_cons, hlit]; rfl
  have hmore : 2 + (stuff (p.data.take j)).length + 1 < (wire s.params s.enc.phase p).length := by
    have hlt := length_stuff_take_succ_lt hj
    rw [henc, wire_emit]
    simpa [hlit] using hlt
  have hindex : 3 + (stuff (p.data.take j)).length = 2 + (stuff (p.data.take j)).length + 1 := by omega
  rw [exec, execEncTokenLit, writeToken_due hdue, encode, List.length_singleton,
    writeBytes_ack 0 hack (sinkAck_of_more hoffer hmore), hindex]
  rfl

/-- Settles O29: behind the stuffed bytes before it stands the escape pair, and the frame goes on behind
it. -/
theorem escapeTokenWritesTwoDles : Obligations.EscapeTokenWritesTwoDles := by
  intro s p j hj henc hack hack'
  have hsplit := data_eq_take_cons hj
  have hdue : tokenDue s = some .encTokenEsc := by
    rw [tokenDue_emit henc, tokenAt_stuff hsplit]; rfl
  have hfirst : Offering s p (2 + (stuff (p.data.take j)).length) DLE :=
    .of_emit henc (frame_getElem?_stuff hsplit 0)
  have hsecond : (wire s.params s.enc.phase p)[2 + (stuff (p.data.take j)).length + 1]? = some DLE := by
    rw [henc]; exact frame_getElem?_stuff hsplit 1
  have hmore : 2 + (stuff (p.data.take j)).length + 2 < (wire s.params s.enc.phase p).length := by
    rw [henc, wire_emit]; exact length_stuff_take_succ_lt hj
  have hindex : 4 + (stuff (p.data.take j)).length = 2 + (stuff (p.data.take j)).length + 2 := by omega
  rw [exec, execEncTokenEsc, writeToken_due hdue, encode, List.length_cons, List.length_singleton,
    writeBytes_two_acks hfirst hsecond hack hack', if_pos hmore, hindex]
  rfl

end Sys2Proof.Machine
end

section
/-! The turns of ENC (R140), by byte and by wire token: in `IDLE` they wait or accept the command, and else
they run transfers to the sink. What they do depends on ENC's part of the state and changes that part
alone. -/

namespace Sys2Proof.Machine

/-- A turn of ENC: a byte turn or a wire-token turn. -/
def Turn.IsEnc (e : Turn) : Prop := e = .enc ∨ e = .encToken

/-! ### The rows ENC's turns run -/

section
variable {s : State} {i : Instr}

theorem turn_enc_row (h : fetchEnc s = some i) : turn .enc s = exec i s := by
  rw [turn, h, runRow]

theorem turn_enc_waits (h : fetchEnc s = none) : turn .enc s = .next s := by
  rw [turn, h, runRow]

theorem fetchEnc_no_command (hph : s.enc.phase = .idle) (hcmd : s.encCh.cmd = none) :
    fetchEnc s = none := by
  simp [fetchEnc, encEvent, hph, hcmd]

theorem fetchEnc_no_answer (hph : s.enc.phase ≠ .idle) (hsnk : s.encCh.snk.next = none) :
    fetchEnc s = none := by
  simp [fetchEnc, encEvent, hph, hsnk]

/-- With a command in progress the sink's answer selects the row. -/
theorem fetchEnc_answer {r : SnkReply} (hph : s.enc.phase ≠ .idle) (hsnk : s.encCh.snk.next = some r) :
    fetchEnc s = some (snkRow r.answer) := by
  cases h : s.enc.phase with
  | idle => exact absurd h hph
  | emit => simp [fetchEnc, encEvent, Enc.ctx, h, hsnk, decodeRow, Decoded.instr?]
  | reject => simp [fetchEnc, encEvent, Enc.ctx, h, hsnk, decodeRow, Decoded.instr?]

theorem exec_snkAck_busy (hph : s.enc.phase ≠ .idle) (hsnk : s.encCh.snk.next = some .ack) :
    exec .snkAck s = sinkAck s := by
  simp [exec, execSnkAck, hph, hsnk]

theorem exec_snkErr_busy {e : SnkErr} {landed : Bool} (hph : s.enc.phase ≠ .idle)
    (hsnk : s.encCh.snk.next = some (.err e landed)) : exec (.snkErr e) s = sinkErr e landed s := by
  simp [exec, execSnkErr, hph, hsnk]

/-- The row of a wire token writes that token. -/
theorem exec_wire_row {bs : List Byte} (h : eventOf i = .wire bs) : exec i s = writeToken i s := by
  cases i with
  | encTokenStart id => rfl
  | encTokenLit d => rfl
  | encTokenEsc => rfl
  | encTokenTerm => rfl
  | _ => nomatch h

theorem Enc.eq_of_fields {u : Enc} {ph : EncPhase} {pkt : Option Packet} {k : Option Nat}
    (hph : u.phase = ph) (hpkt : u.pkt = pkt) (hk : u.k = k) : u = { phase := ph, pkt := pkt, k := k } := by
  subst hph hpkt hk; rfl

/-- ENC stands at a wire token only in `EMIT`, with a packet and an index. -/
theorem tokenDue_some (h : tokenDue s = some i) :
    ∃ p k, s.enc = { phase := .emit, pkt := some p, k := some k } ∧ tokenAt p k = some i := by
  unfold tokenDue at h
  split at h
  · rename_i hph
    split at h
    · rename_i p k hpkt hk
      exact ⟨p, k, Enc.eq_of_fields hph hpkt hk, h⟩
    · nomatch h
  · nomatch h

theorem exec_token_due (h : tokenDue s = some i) : exec i s = writeBytes (encode i).length s := by
  obtain ⟨p, k, -, htok⟩ := tokenDue_some h
  rw [exec_wire_row (tokenAt_bytes htok).1, writeToken_due h]

theorem fetchToken_due (hsnk : s.encCh.snk.next ≠ none) (h : tokenDue s = some i) :
    fetchToken s = some i := by
  simp [fetchToken, Option.isSome_iff_ne_none.2 hsnk, h]

theorem fetchToken_of_no_due (h : tokenDue s = none) : fetchToken s = fetchEnc s := by
  simp [fetchToken, h]

theorem fetchToken_silent (h : s.encCh.snk.next = none) : fetchToken s = fetchEnc s := by
  simp [fetchToken, h]

theorem tokenDue_idle (hph : s.enc.phase = .idle) : tokenDue s = none := by
  simp [tokenDue, hph]

/-- In `IDLE` a wire-token turn is a byte turn. -/
theorem turn_isEnc_idle {e : Turn} (he : e.IsEnc) (hph : s.enc.phase = .idle) :
    turn e s = turn .enc s := by
  rcases he with rfl | rfl
  · rfl
  · rw [turn, turn, fetchToken_of_no_due (tokenDue_idle hph)]

end

/-! ### The transfers of a turn -/

section
variable {s : State}

theorem writeBytes_silent (n : Nat) (h : s.encCh.snk.next = none) : writeBytes n s = .next s := by
  cases n with
  | zero => rfl
  | succ n => simp [writeBytes, h]

theorem writeBytes_err {e : SnkErr} {landed : Bool} (n : Nat) (h : s.encCh.snk.next = some (.err e landed)) :
    writeBytes (n + 1) s = sinkErr e landed s := by
  simp [writeBytes, h]

theorem writeBytes_one_ack (h : s.encCh.snk.next = some .ack) : writeBytes 1 s = sinkAck s := by
  rw [writeBytes, h]
  cases sinkAck s <;> rfl

/-- A byte turn of a busy ENC is one transfer. -/
theorem turn_enc_busy (hph : s.enc.phase ≠ .idle) : turn .enc s = writeBytes 1 s := by
  cases hsnk : s.encCh.snk.next with
  | none => rw [turn_enc_waits (fetchEnc_no_answer hph hsnk), writeBytes_silent 1 hsnk]
  | some r =>
    rw [turn_enc_row (fetchEnc_answer hph hsnk)]
    cases r with
    | ack => rw [writeBytes_one_ack hsnk]; exact exec_snkAck_busy hph hsnk
    | err e landed => rw [writeBytes_err 0 hsnk]; exact exec_snkErr_busy hph hsnk

/-- How many transfers a turn of a busy ENC makes: those of the token it stands at, or one. -/
def transfers (e : Turn) (s : State) : Nat :=
  match e with
  | .encToken => ((tokenDue s).map fun i => (encode i).length).getD 1
  | _ => 1

/-- A turn of a busy ENC is its transfers. -/
theorem turn_isEnc_busy {e : Turn} (he : e.IsEnc) (hph : s.enc.phase ≠ .idle) :
    turn e s = writeBytes (transfers e s) s := by
  rcases he with rfl | rfl
  · exact turn_enc_busy hph
  · cases hsnk : s.encCh.snk.next with
    | none =>
      rw [turn, fetchToken_silent hsnk, fetchEnc_no_answer hph hsnk, runRow, writeBytes_silent _ hsnk]
    | some r =>
      cases hdue : tokenDue s with
      | none =>
        have hone : transfers .encToken s = 1 := by simp [transfers, hdue]
        rw [turn, fetchToken_of_no_due hdue, hone]
        exact turn_enc_busy hph
      | some i =>
        rw [turn, fetchToken_due (by simp [hsnk]) hdue, runRow, exec_token_due hdue]
        simp [transfers, hdue]

end

/-! ### What ENC's part of the state decides -/

/-- From parameters `c`, registers `u` and channels `ch`, `f` gives `u'` and `ch'` and changes nothing else,
whatever the rest of the state holds. -/
def OnEnc (f : State → Result) (c : Params) (u : Enc) (ch : EncCh) (u' : Enc) (ch' : EncCh) : Prop :=
  ∀ s : State, s.params = c → s.enc = u → s.encCh = ch → f s = .next { s with enc := u', encCh := ch' }

theorem OnEnc.of_stays {f : State → Result} {c : Params} {u : Enc} {ch : EncCh}
    (h : ∀ s : State, s.enc = u → s.encCh = ch → f s = .next s) : OnEnc f c u ch u ch := by
  rintro s - rfl rfl
  exact h s rfl rfl

theorem sinkErr_offering {s : State} {p : Packet} {k : Nat} {b : Byte} {e : SnkErr} {landed : Bool}
    (h : Offering s p k b) (herr : s.encCh.snk.next = some (.err e landed)) :
    sinkErr e landed s = .next
      { s with
        enc := Enc.idle
        encCh := { s.encCh with
          snk := { s.encCh.snk.pop with
            taken := s.encCh.snk.taken ++ (if landed then [b] else []) }
          res := s.encCh.res ++ [.snkErr e] } } := by
  rw [← exec_snkErr_busy h.phase_ne_idle herr, exec_snkErr h herr]

/-- Transfers of bytes that are all on offer end in a state that ENC's part decides. -/
theorem onEnc_writeBytes {c : Params} {ph : EncPhase} {p : Packet} (n k : Nat) (ch : EncCh)
    (hn : k + n ≤ (wire c ph p).length) :
    ∃ u' ch', OnEnc (writeBytes n) c { phase := ph, pkt := some p, k := some k } ch u' ch' := by
  induction n generalizing k ch with
  | zero => exact ⟨_, ch, .of_stays fun s _ _ => rfl⟩
  | succ n ih =>
    have hk : (wire c ph p)[k]? = some (wire c ph p)[k] := List.getElem?_eq_getElem (by omega)
    have hoffer : ∀ s : State, s.params = c → s.enc = { phase := ph, pkt := some p, k := some k } →
        Offering s p k (wire c ph p)[k] := by
      rintro s rfl hu
      constructor <;> rw [hu]
      exact hk
    cases hsnk : ch.snk.next with
    | none =>
      exact ⟨_, ch, .of_stays fun s _ hch => writeBytes_silent _ (by rw [hch, hsnk])⟩
    | some r =>
      cases r with
      | err e landed =>
        refine ⟨.idle,
          { ch with
            snk := { ch.snk.pop with
              taken := ch.snk.taken ++ (if landed then [(wire c ph p)[k]] else []) }
            res := ch.res ++ [.snkErr e] }, ?_⟩
        rintro s rfl hu rfl
        rw [writeBytes_err n hsnk]
        exact sinkErr_offering (hoffer s rfl hu) hsnk
      | ack =>
        by_cases hmore : k + 1 < (wire c ph p).length
        · obtain ⟨u', ch', hrest⟩ :=
            ih (k + 1) { ch with snk := ch.snk.pop.put (wire c ph p)[k] } (by omega)
          refine ⟨u', ch', ?_⟩
          rintro s rfl hu rfl
          rw [writeBytes_ack n hsnk (sinkAck_of_more (hoffer s rfl hu) (by rw [hu]; exact hmore))]
          exact hrest _ rfl (by simp [offerNext, hu]) rfl
        · obtain rfl : n = 0 := by omega
          refine ⟨.idle,
            { ch with
              snk := ch.snk.pop.put (wire c ph p)[k]
              res := ch.res ++ [if ph = .emit then .ok else .invalidId p.id] }, ?_⟩
          rintro s rfl hu rfl
          rw [writeBytes_ack 0 hsnk (sinkAck_offering (hoffer s rfl hu)), advance_takeReply,
            if_neg (by rw [hu]; exact hmore), hu]
          rfl

/-- What an idle ENC does with the command `p` that waits on its channel (R141, R142). -/
inductive EncAccept (c : Params) (p : Packet) (ch : EncCh) : Enc → EncCh → Prop where
  | encode (hp : p.encodable = true) :
      EncAccept c p ch { phase := .emit, pkt := some p, k := some 0 } { ch with cmd := none }
  | refuse (hp : p.encodable = false) (hlen : c.rejectLen = 0) :
      EncAccept c p ch .idle { ch with cmd := none, res := ch.res ++ [.invalidId p.id] }
  | reject (hp : p.encodable = false) (hlen : c.rejectLen ≠ 0) :
      EncAccept c p ch { phase := .reject, pkt := some p, k := some 0 } { ch with cmd := none }

section
variable {e : Turn} {c : Params} {u : Enc} {ch : EncCh}

theorem onEnc_wait (he : e.IsEnc) (hph : u.phase = .idle) (hcmd : ch.cmd = none) :
    OnEnc (turn e) c u ch u ch := by
  refine .of_stays ?_
  rintro s rfl rfl
  rw [turn_isEnc_idle he hph, turn_enc_waits (fetchEnc_no_command hph hcmd)]

theorem onEnc_accept {p : Packet} (he : e.IsEnc) (hph : u.phase = .idle) (hcmd : ch.cmd = some p) :
    ∃ u' ch', EncAccept c p ch u' ch' ∧ OnEnc (turn e) c u ch u' ch' := by
  have hturn : ∀ s : State, s.enc = u → s.encCh = ch → turn e s = exec (encodeRow p) s := by
    rintro s rfl rfl
    rw [turn_isEnc_idle he hph, turn_enc_row (fetchEnc_idle hph hcmd)]
  cases hp : p.encodable with
  | true =>
    refine ⟨_, _, .encode hp, ?_⟩
    rintro s - rfl rfl
    rw [hturn s rfl rfl, encodeRow_of_encodable hp, exec_encode_idle hp hph hcmd]
  | false =>
    by_cases hlen : c.rejectLen = 0
    · refine ⟨_, _, .refuse hp hlen, ?_⟩
      rintro s rfl rfl rfl
      rw [hturn s rfl rfl, encodeRow_of_not_encodable hp, exec_encodeReject_idle hp hph hcmd,
        if_pos hlen]
    · refine ⟨_, _, .reject hp hlen, ?_⟩
      rintro s rfl rfl rfl
      rw [hturn s rfl rfl, encodeRow_of_not_encodable hp, exec_encodeReject_idle hp hph hcmd,
        if_neg hlen]

/-- Registers that meet the invariant in a command: a latched packet and an index below `|W|`. -/
theorem encOk_busy (h : encOk c u = true) (hph : u.phase ≠ .idle) :
    ∃ p k, u = { phase := u.phase, pkt := some p, k := some k } ∧
      k < (wire c u.phase p).length ∧ (u.phase = .emit ↔ p.encodable = true) := by
  obtain ⟨ph, pkt, k⟩ := u
  cases ph with
  | idle => exact absurd rfl hph
  | emit =>
    cases pkt <;> cases k <;> simp only [encOk, Bool.false_eq_true, Bool.and_eq_true, decide_eq_true_eq] at h
    exact ⟨_, _, rfl, h.2, by simp [h.1]⟩
  | reject =>
    cases pkt <;> cases k <;>
      simp only [encOk, Bool.false_eq_true, Bool.and_eq_true, decide_eq_true_eq, Bool.not_eq_true'] at h
    exact ⟨_, _, rfl, h.2, by simp [h.1]⟩

/-- The transfers of a turn are all on offer: a token ends within the frame. -/
theorem transfers_le {s : State} {p : Packet} {k : Nat} (e : Turn) (hpkt : s.enc.pkt = some p)
    (hk : s.enc.k = some k) (hlt : k < (wire s.params s.enc.phase p).length) :
    k + transfers e s ≤ (wire s.params s.enc.phase p).length := by
  cases e with
  | encToken =>
    cases hdue : tokenDue s with
    | none => simpa [transfers, hdue] using hlt
    | some i =>
      obtain ⟨p', k', hu, htok⟩ := tokenDue_some hdue
      obtain rfl : p' = p := by simpa [hu] using hpkt
      obtain rfl : k' = k := by simpa [hu] using hk
      rw [hu, wire_emit]
      simpa [transfers, hdue] using tokenAt_le_length htok
  | _ => exact hlt

/-- With registers that meet the invariant a turn of ENC changes ENC's part alone, as that part decides. -/
theorem onEnc_of_encOk (he : e.IsEnc) (h : encOk c u = true) (ch : EncCh) :
    ∃ u' ch', OnEnc (turn e) c u ch u' ch' := by
  by_cases hph : u.phase = .idle
  · cases hcmd : ch.cmd with
    | none => exact ⟨u, ch, onEnc_wait he hph hcmd⟩
    | some p =>
      obtain ⟨u', ch', -, hturn⟩ := onEnc_accept he hph hcmd
      exact ⟨u', ch', hturn⟩
  · obtain ⟨p, k, hu, hlt, -⟩ := encOk_busy h hph
    have hlen : ∀ s : State, s.params = c → s.enc = u →
        transfers e s = transfers e { State.reset with params := c, enc := u } := by
      rintro s rfl rfl; rfl
    obtain ⟨u', ch', hrun⟩ := onEnc_writeBytes (c := c) (ph := u.phase) (p := p)
      (transfers e { State.reset with params := c, enc := u }) k ch
      (transfers_le (s := { State.reset with params := c, enc := u }) e
        (congrArg Enc.pkt hu) (congrArg Enc.k hu) hlt)
    refine ⟨u', ch', fun s hc hs hch => ?_⟩
    rw [turn_isEnc_busy he (by rw [hs]; exact hph), hlen s hc hs]
    exact hrun s hc (hs.trans hu) hch

end

/-! ### Transfers that answer next -/

/-- One transfer (R146, R147): the next byte is offered, or a result is delivered. -/
inductive Transfer (s : State) : State → Prop where
  | more {p : Packet} {k : Nat} {b : Byte} (h : Offering s p k b)
      (hmore : k + 1 < (wire s.params s.enc.phase p).length) : Transfer s (offerNext k b s)
  | done {p : Packet} {k : Nat} {b : Byte} (h : Offering s p k b) (l : List Byte) (x : EncResult)
      (hx : encOk s.params s.enc = true → encResultOk x = true) :
      Transfer s
        { s with
          enc := Enc.idle
          encCh := { s.encCh with
            snk := { s.encCh.snk.pop with taken := s.encCh.snk.taken ++ l }
            res := s.encCh.res ++ [x] } }

/-- The result behind the last byte, from registers that meet the invariant: only a reserved id is
refused. -/
theorem encResultOk_of_last {s : State} {p : Packet} {k : Nat} {b : Byte} (h : Offering s p k b)
    (hok : encOk s.params s.enc = true) :
    encResultOk (if s.enc.phase = .emit then .ok else .invalidId p.id) = true := by
  obtain ⟨p', k', hu, -, hemit⟩ := encOk_busy hok h.phase_ne_idle
  obtain rfl : p' = p := Option.some.inj ((congrArg Enc.pkt hu).symm.trans h.pkt)
  split
  · rfl
  · rename_i hph
    have hp : ¬ p'.encodable = true := fun h => hph (hemit.2 h)
    simpa [encResultOk, Packet.encodable] using hp

theorem transfer_of_sinkAck {s t : State} (h : sinkAck s = .next t) : Transfer s t := by
  obtain ⟨p, k, b, hpkt, hk, hb, rfl⟩ := sinkAck_next.1 h
  have hoffer : Offering s p k b := ⟨hpkt, hk, hb⟩
  rw [advance_takeReply]
  split
  · exact .more hoffer ‹_›
  · exact .done hoffer [b] _ (encResultOk_of_last hoffer)

theorem transfer_of_sinkErr {s t : State} {e : SnkErr} {landed : Bool}
    (herr : s.encCh.snk.next = some (.err e landed)) (h : sinkErr e landed s = .next t) :
    Transfer s t := by
  obtain ⟨p, k, b, hpkt, hk, hb, -⟩ := sinkErr_next.1 h
  have hoffer : Offering s p k b := ⟨hpkt, hk, hb⟩
  rw [sinkErr_offering hoffer herr] at h
  cases h
  exact .done hoffer _ _ fun _ => rfl

/-- What every transfer keeps, the transfers of a turn keep. -/
theorem writeBytes_keeps_transfer {P : State → Prop} (hP : ∀ s t, P s → Transfer s t → P t) {n : Nat}
    {s t : State} (hs : P s) (h : writeBytes n s = .next t) : P t :=
  writeBytes_keeps (fun _ _ hs _ h => hP _ _ hs (transfer_of_sinkAck h))
    (fun _ _ _ _ hs herr h => hP _ _ hs (transfer_of_sinkErr herr h)) n s t hs h

end Sys2Proof.Machine
end

section
/-! What the callers' actions, reset and the transport of a loopback do (R64, R65, R89, R200, R201): each action
written out where a statement asks for it, and what all of them leave. -/

namespace Sys2Proof.Machine

/-! ### Reset -/

/-- Reset of ENC written out: only the sink can differ beside the registers, by the byte on offer. -/
theorem resetEnc_eq {o : Option Byte} {s : State} (hoffer : offered? s = o) (writeLanded : Bool) :
    resetEnc writeLanded s =
      { s with
        enc := .idle
        encCh := { s.encCh with
          snk := o.elim s.encCh.snk fun b =>
            if writeLanded then s.encCh.snk.pop.put b else s.encCh.snk } } := by
  cases o with
  | none => rw [resetEnc_of_no_offer hoffer]; rfl
  | some b => rw [resetEnc_of_offer hoffer]; cases writeLanded <;> rfl

/-! ### What an action leaves -/

/-- What a caller's action and the transport leave: a unit's registers stay or take the values of reset, no
result is delivered, no waiting command is taken, and the loopback passes no more than the sink holds. -/
structure CallerLeaves (s t : State) : Prop where
  params : t.params = s.params
  dec : t.dec = s.dec ∨ t.dec = .idle
  decRes : t.decCh.res = s.decCh.res
  decCmd : s.decCh.cmd = true → t.decCh.cmd = true
  enc : t.enc = s.enc ∨ t.enc = .idle
  encRes : t.encCh.res = s.encCh.res
  encCmd : ∀ p, s.encCh.cmd = some p → t.encCh.cmd = some p
  loop : loopOk s = true → loopOk t = true

theorem CallerLeaves.refl (s : State) : CallerLeaves s s :=
  ⟨rfl, .inl rfl, rfl, id, .inl rfl, rfl, fun _ => id, id⟩

theorem CallerLeaves.trans {s t u : State} (h : CallerLeaves s t) (h' : CallerLeaves t u) :
    CallerLeaves s u where
  params := h'.params.trans h.params
  dec := h'.dec.elim (fun heq => heq ▸ h.dec) .inr
  decRes := h'.decRes.trans h.decRes
  decCmd := h'.decCmd ∘ h.decCmd
  enc := h'.enc.elim (fun heq => heq ▸ h.enc) .inr
  encRes := h'.encRes.trans h.encRes
  encCmd := fun p hp => h'.encCmd p (h.encCmd p hp)
  loop := h'.loop ∘ h.loop

/-- The schedule is in none of it. -/
theorem CallerLeaves.of_setSched {s t : State} {x : Feed Turn} (h : CallerLeaves (s.setSched x) t) :
    CallerLeaves s t :=
  ⟨h.params, h.dec, h.decRes, h.decCmd, h.enc, h.encRes, h.encCmd, h.loop⟩

theorem loopOk_iff {s : State} :
    loopOk s = true ↔ ∀ n, s.loop = some n → n ≤ s.encCh.snk.taken.length := by
  cases h : s.loop <;> simp [loopOk, h]

/-- A sink that holds no fewer bytes keeps the loopback within them. -/
theorem loopOk_of_taken_le {s t : State} (hloop : t.loop = s.loop)
    (hle : s.encCh.snk.taken.length ≤ t.encCh.snk.taken.length) (h : loopOk s = true) :
    loopOk t = true :=
  loopOk_iff.2 fun n hn => Nat.le_trans (loopOk_iff.1 h n (hloop ▸ hn)) hle

section
variable (s : State)

theorem setProg_leaves (p : Prog) : CallerLeaves s (s.setProg p) :=
  ⟨rfl, .inl rfl, rfl, id, .inl rfl, rfl, fun _ => id, id⟩

theorem setSource_leaves (q : Source) : CallerLeaves s (s.setDecCh { s.decCh with src := q }) :=
  ⟨rfl, .inl rfl, rfl, id, .inl rfl, rfl, fun _ => id, id⟩

theorem resetDec_leaves (readLost : Bool) : CallerLeaves s (resetDec readLost s) := by
  rw [resetDec_eq]
  exact ⟨rfl, .inr rfl, rfl, id, .inl rfl, rfl, fun _ => id, id⟩

theorem resetEnc_leaves (writeLanded : Bool) : CallerLeaves s (resetEnc writeLanded s) := by
  rw [resetEnc_eq rfl]
  refine ⟨rfl, .inl rfl, rfl, id, .inr rfl, rfl, fun _ => id, loopOk_of_taken_le rfl ?_⟩
  cases offered? s <;> cases writeLanded <;> simp

theorem passByte_leaves : CallerLeaves s (passByte s) := by
  unfold passByte
  split
  · exact .refl s
  · rename_i n _
    split
    · exact .refl s
    · rename_i b hb
      obtain ⟨hlt, -⟩ := List.getElem?_eq_some_iff.1 hb
      refine ⟨rfl, .inl rfl, rfl, id, .inl rfl, rfl, fun _ => id, fun _ => loopOk_iff.2 fun m hm => ?_⟩
      obtain rfl : n + 1 = m := Option.some.inj hm
      exact hlt

end

/-- An action that happens leaves what every action leaves, and a caller that waits changes nothing. -/
theorem act_leaves {a : Act} {w s t : State} (hws : CallerLeaves w s) (h : act a w s = .next t) :
    CallerLeaves w t := by
  cases a with
  | source q =>
    cases h
    split
    · exact .refl w
    · exact hws.trans (setSource_leaves s q)
  | sink q =>
    cases h
    split
    · exact .refl w
    · exact hws.trans ⟨rfl, .inl rfl, rfl, id, .inl rfl, rfl, fun _ => id, fun _ => rfl⟩
  | decode =>
    cases h
    split
    · exact .refl w
    · exact hws.trans ⟨rfl, .inl rfl, rfl, fun _ => rfl, .inl rfl, rfl, fun _ => id, id⟩
  | encode p =>
    cases h
    split
    · exact .refl w
    · rename_i hcmd
      exact hws.trans ⟨rfl, .inl rfl, rfl, id, .inl rfl, rfl, fun q hq => by simp [hq] at hcmd, id⟩
  | loop x =>
    cases h
    refine hws.trans ((setSource_leaves s { s.decCh.src with after := x }).trans
      ⟨rfl, .inl rfl, rfl, id, .inl rfl, rfl, fun _ => id, fun _ => ?_⟩)
    exact loopOk_iff.2 fun n hn => (Option.some.inj hn).ge
  | reset d e readLost writeLanded =>
    have hdec : CallerLeaves w (if d then resetDec readLost s else s) := by
      cases d
      · exact hws
      · exact hws.trans (resetDec_leaves s readLost)
    cases h
    cases e
    · exact hdec
    · exact hdec.trans (resetEnc_leaves _ writeLanded)
  | otherReader =>
    rw [act] at h
    split at h
    · cases h; exact hws.trans (setSource_leaves s _)
    · nomatch h
  | otherWriter b =>
    rw [act] at h
    split at h
    · cases h
      exact hws.trans ⟨rfl, .inl rfl, rfl, id, .inl rfl, rfl, fun _ => id,
        loopOk_of_taken_le rfl (by simp)⟩
    · nomatch h

theorem callerTurn_leaves {u : Side} {s t : State} (h : callerTurn u s = .next t) : CallerLeaves s t := by
  unfold callerTurn at h
  split at h
  · cases h; exact .refl s
  · exact act_leaves (setProg_leaves s _) h

/-- The outcome is a next state, or the refusal of another user of a stream (R65, R205). -/
def StopsOnlyBySharing (o : Result) : Prop :=
  (∃ t, o = .next t) ∨ ∃ r, o = .refused r ∧ r.isSharing = true

theorem act_stops (a : Act) (w s : State) : StopsOnlyBySharing (act a w s) := by
  cases a with
  | otherReader =>
    rw [act]
    split
    · exact .inl ⟨_, rfl⟩
    · exact .inr ⟨_, rfl, rfl⟩
  | otherWriter b =>
    rw [act]
    split
    · exact .inl ⟨_, rfl⟩
    · exact .inr ⟨_, rfl, rfl⟩
  | _ => exact .inl ⟨_, rfl⟩

theorem callerTurn_stops (u : Side) (s : State) : StopsOnlyBySharing (callerTurn u s) := by
  unfold callerTurn
  split
  · exact .inl ⟨s, rfl⟩
  · exact act_stops _ _ _

/-! ### The statements on the callers -/

/-- A caller's turn takes its next action. -/
theorem step_caller {s : State} {u : Side} {a : Act} {rest : Prog} (hturn : s.sched.next = some (.caller u))
    (htake : s.prog.take u = some (a, rest)) :
    step s = act a (s.setSched s.sched.pop) ((s.setSched s.sched.pop).setProg rest) := by
  rw [step_turn hturn, turn, callerTurn, State.setSched_prog, htake]

/-- Settles O50: each unit that the reset reaches is reset, the one behind the other. -/
theorem resetSetsTheUnitsItReaches : Obligations.ResetSetsTheUnitsItReaches := by
  intro s u d e readLost writeLanded rest hturn htake
  rw [step_caller hturn htake]
  have hdec (t : State) : (if d then resetDec readLost t else t) =
      { t with
        dec := if d then Dec.idle else t.dec
        decCh := { t.decCh with
          src := if d = true ∧ readLost = true ∧ t.dec.phase ≠ .idle then t.decCh.src.pop
            else t.decCh.src } } := by
    cases d
    · rfl
    · rw [if_pos rfl, resetDec_eq]; simp
  rw [act, hdec]
  cases hoffer : offered? s with
  | none =>
    cases e with
    | false => rfl
    | true =>
      rw [if_pos rfl, resetEnc_eq (o := none)]
      · rfl
      · exact hoffer
  | some b =>
    cases e with
    | false => rfl
    | true =>
      rw [if_pos rfl, resetEnc_eq (o := some b)]
      · cases writeLanded <;> rfl
      · exact hoffer

/-- Settles O51: each of the five actions, where it happens and where the caller waits. -/
theorem callerActionsReachTheirChannel : Obligations.CallerActionsReachTheirChannel := by
  intro s u a rest hturn htake
  rw [step_caller hturn htake]
  refine ⟨?_, ?_, ?_, ?_, ?_⟩
  · rintro rfl; rfl
  · rintro p rfl
    cases hcmd : s.encCh.cmd <;> simp [act, hcmd, State.setEncCh, State.setProg, State.setSched]
  · rintro q rfl hph hcmd
    have hidle : decBusy s = false := by simp [decBusy, hph, hcmd]
    exact congrArg Host.Outcome.next (if_neg (Bool.eq_false_iff.1 hidle))
  · rintro q rfl hph hcmd
    have hidle : encBusy s = false := by simp [encBusy, hph, hcmd]
    exact congrArg Host.Outcome.next (if_neg (Bool.eq_false_iff.1 hidle))
  · rintro x rfl; rfl

end Sys2Proof.Machine
end

section
/-! The invariant and the other statements over every step: what each kind of turn leaves, said once, and
the statements read off it. -/

namespace Sys2Proof.Machine

/-! ### What a turn of DEC leaves -/

section
variable {c : Params} {d d' : Dec} {ch ch' : DecCh}

theorem decOk_idle (c : Params) : decOk c .idle = true := by simp [decOk, Dec.idle]

/-- One more byte is within `MAX_DATA` where the accumulator is not full. -/
theorem withinMax_succ {n : Nat} (h : withinMax c n = true) (hroom : c.maxData ≠ some n) :
    withinMax c (n + 1) = true := by
  refine withinMax_iff.2 fun m hm => Nat.succ_le_of_lt (lt_of_le_of_ne (withinMax_iff.1 h m hm) ?_)
  rintro rfl
  exact hroom hm

theorem DecMove.keeps_decOk (h : DecMove c d ch d' ch') (hok : decOk c d = true) : decOk c d' = true := by
  cases h with
  | wait => exact hok
  | accept => rfl
  | scan _ hph => simpa [decOk, hph] using hok
  | start b _ hb => simpa [decOk, hb] using withinMax_iff.2 fun _ _ => Nat.zero_le _
  | withhold hph => simpa [decOk, hph] using hok
  | store b hph _ _ _ hroom =>
    simp only [decOk, hph, Bool.and_eq_true] at hok ⊢
    exact ⟨hok.1, by simpa using withinMax_succ hok.2 hroom⟩
  | deliver => exact decOk_idle c

theorem DecMove.keeps_results (h : DecMove c d ch d' ch') (hok : decOk c d = true)
    (hres : ch.res.all (decResultOk c) = true) : ch'.res.all (decResultOk c) = true := by
  cases h with
  | deliver x _ hx => simp only [List.all_append, hres, List.all_cons, hx hok, List.all_nil, Bool.and_self]
  | _ => exact hres

theorem DecMove.delivers (h : DecMove c d ch d' ch') :
    ch'.res = ch.res ∨ ∃ x, ch'.res = ch.res ++ [x] ∧ d' = .idle := by
  cases h with
  | deliver x => exact .inr ⟨x, rfl, rfl⟩
  | _ => exact .inl rfl

theorem DecMove.keeps_command (h : DecMove c d ch d' ch') :
    ch'.cmd = ch.cmd ∨ (d.phase = .idle ∧ d'.phase = .scan) := by
  cases h with
  | accept hph => exact .inr ⟨hph, rfl⟩
  | _ => exact .inl rfl

theorem DecMove.appends (h : DecMove c d ch d' ch') (hph : d.phase = .body) (hph' : d'.phase = .body) :
    ∃ l, d'.data = d.data ++ l ∧ l.length ≤ 1 := by
  have hsame (heq : d'.data = d.data) : ∃ l, d'.data = d.data ++ l ∧ l.length ≤ 1 :=
    ⟨[], by simp [heq], Nat.zero_le 1⟩
  cases h with
  | wait => exact hsame rfl
  | accept => nomatch hph'
  | scan => exact hsame rfl
  | start _ h => rw [h] at hph; nomatch hph
  | withhold => exact hsame rfl
  | store b => exact ⟨[b], rfl, Nat.le_refl 1⟩
  | deliver => nomatch hph'

end

/-- What a turn of DEC leaves: a move of DEC's part, and all else unchanged. -/
structure DecLeaves (s t : State) : Prop where
  move : DecMove s.params s.dec s.decCh t.dec t.decCh
  enc : t.enc = s.enc
  encCh : t.encCh = s.encCh
  params : t.params = s.params
  loop : t.loop = s.loop

theorem DecLeaves.of_setSched {s t : State} {x : Feed Turn} (h : DecLeaves (s.setSched x) t) :
    DecLeaves s t :=
  ⟨h.move, h.enc, h.encCh, h.params, h.loop⟩

theorem turn_dec_leaves {s t : State} (h : turn .dec s = .next t) : DecLeaves s t := by
  obtain ⟨hmove, heq⟩ := turn_dec_next h
  exact ⟨hmove, by rw [heq], by rw [heq], by rw [heq], by rw [heq]⟩

/-! ### What a turn of ENC leaves -/

theorem encOk_idle (c : Params) : encOk c .idle = true := rfl

/-- The registers meet the invariant at every index below `|W|`. -/
theorem encOk_index {c : Params} {u : Enc} {p : Packet} {k : Nat} (hok : encOk c u = true)
    (hph : u.phase ≠ .idle) (hpkt : u.pkt = some p) (hk : k < (wire c u.phase p).length) :
    encOk c { u with k := some k } = true := by
  obtain ⟨p', k', hu, -, hemit⟩ := encOk_busy hok hph
  obtain rfl : p' = p := Option.some.inj ((congrArg Enc.pkt hu).symm.trans hpkt)
  cases h : u.phase with
  | idle => exact absurd h hph
  | emit =>
    rw [h] at hk
    simp [encOk, hpkt, hemit.1 h, hk]
  | reject =>
    rw [h] at hk hemit
    simp [encOk, hpkt, hk, show p'.encodable = false by simpa using hemit]

/-- What a turn of ENC leaves: DEC's part, the parameters and the loopback unchanged, no fewer bytes in the
sink, at most one result with the registers of reset, and the invariant on ENC's part. -/
structure EncLeaves (s t : State) : Prop where
  params : t.params = s.params
  dec : t.dec = s.dec
  decCh : t.decCh = s.decCh
  loop : t.loop = s.loop
  taken : s.encCh.snk.taken.length ≤ t.encCh.snk.taken.length
  delivers : t.encCh.res = s.encCh.res ∨ ∃ x, t.encCh.res = s.encCh.res ++ [x] ∧ t.enc = .idle
  ok : encOk s.params s.enc = true → encOk s.params t.enc = true
  results : encOk s.params s.enc = true → s.encCh.res.all encResultOk = true →
    t.encCh.res.all encResultOk = true
  command : t.encCh.cmd = s.encCh.cmd ∨
    ∃ p, s.enc.phase = .idle ∧ s.encCh.cmd = some p ∧ EncAccept s.params p s.encCh t.enc t.encCh

theorem EncLeaves.refl (s : State) : EncLeaves s s :=
  ⟨rfl, rfl, rfl, rfl, Nat.le_refl _, .inl rfl, id, fun _ => id, .inl rfl⟩

theorem EncLeaves.of_setSched {s t : State} {x : Feed Turn} (h : EncLeaves (s.setSched x) t) :
    EncLeaves s t :=
  ⟨h.params, h.dec, h.decCh, h.loop, h.taken, h.delivers, h.ok, h.results, h.command⟩

/-- An accepted command leaves what a turn of ENC leaves. -/
theorem EncAccept.leaves {s : State} {p : Packet} {u' : Enc} {ch' : EncCh} (hph : s.enc.phase = .idle)
    (hcmd : s.encCh.cmd = some p) (h : EncAccept s.params p s.encCh u' ch') :
    EncLeaves s { s with enc := u', encCh := ch' } := by
  have hcommand := h
  cases h with
  | encode hp =>
    refine ⟨rfl, rfl, rfl, rfl, Nat.le_refl _, .inl rfl, fun _ => ?_, fun _ => id,
      .inr ⟨p, hph, hcmd, hcommand⟩⟩
    simp [encOk, hp, wire]
  | refuse hp =>
    refine ⟨rfl, rfl, rfl, rfl, Nat.le_refl _, .inr ⟨_, rfl, rfl⟩, fun _ => rfl, fun _ hres => ?_,
      .inr ⟨p, hph, hcmd, hcommand⟩⟩
    have hid : isOther p.id = false := hp
    simp [List.all_append, hres, encResultOk, hid]
  | reject hp hlen =>
    refine ⟨rfl, rfl, rfl, rfl, Nat.le_refl _, .inl rfl, fun _ => ?_, fun _ => id,
      .inr ⟨p, hph, hcmd, hcommand⟩⟩
    have hpos : s.params.rejectLen.val ≠ 0 := fun h => hlen (Fin.ext h)
    simp [encOk, hp, wire, Nat.pos_iff_ne_zero, hpos]

/-- A state with a byte on offer has delivered nothing yet. -/
theorem EncLeaves.res_of_offering {s t : State} {p : Packet} {k : Nat} {b : Byte} (h : EncLeaves s t)
    (hoffer : Offering t p k b) : t.encCh.res = s.encCh.res := by
  rcases h.delivers with heq | ⟨x, -, hidle⟩
  · exact heq
  · exact absurd (congrArg Enc.phase hidle) hoffer.phase_ne_idle

/-- A transfer behind others leaves what a turn of ENC leaves. -/
theorem EncLeaves.transfer {s t u : State} (h : EncLeaves s t) (hcmd : t.encCh.cmd = s.encCh.cmd)
    (htransfer : Transfer t u) : EncLeaves s u ∧ u.encCh.cmd = s.encCh.cmd := by
  cases htransfer with
  | @more p k b hoffer hmore =>
    have hres := h.res_of_offering hoffer
    refine ⟨⟨h.params, h.dec, h.decCh, h.loop, ?_, .inl hres, fun hok => ?_, fun hok hall => ?_,
      .inl hcmd⟩, hcmd⟩
    · exact Nat.le_trans h.taken (by simp [offerNext])
    · rw [h.params] at hmore
      exact encOk_index (h.ok hok) hoffer.phase_ne_idle hoffer.pkt hmore
    · exact h.results hok hall
  | @done p k b hoffer l x hx =>
    have hres := h.res_of_offering hoffer
    refine ⟨⟨h.params, h.dec, h.decCh, h.loop, ?_, .inr ⟨x, ?_, rfl⟩, fun _ => rfl,
      fun hok hall => ?_, .inl hcmd⟩, hcmd⟩
    · exact Nat.le_trans h.taken (by simp)
    · exact congrArg (· ++ [x]) hres
    · have hx' := hx (by rw [h.params]; exact h.ok hok)
      simp only [List.all_append, h.results hok hall, List.all_cons, hx', List.all_nil, Bool.and_self]

theorem writeBytes_leaves {n : Nat} {s t : State} (h : writeBytes n s = .next t) : EncLeaves s t :=
  (writeBytes_keeps_transfer (P := fun u => EncLeaves s u ∧ u.encCh.cmd = s.encCh.cmd)
    (fun _ _ hu => hu.1.transfer hu.2) ⟨.refl s, rfl⟩ h).1

theorem turn_isEnc_leaves {e : Turn} {s t : State} (he : e.IsEnc) (h : turn e s = .next t) :
    EncLeaves s t := by
  by_cases hph : s.enc.phase = .idle
  · cases hcmd : s.encCh.cmd with
    | none =>
      rw [onEnc_wait he hph hcmd s rfl rfl rfl] at h
      cases h
      exact .refl s
    | some p =>
      obtain ⟨u', ch', haccept, hturn⟩ := onEnc_accept (c := s.params) he hph hcmd
      rw [hturn s rfl rfl rfl] at h
      cases h
      exact haccept.leaves hph hcmd
  · rw [turn_isEnc_busy he hph] at h
    exact writeBytes_leaves h

/-! ### What a step leaves -/

theorem turn_leaves {k : Turn} {s t : State} (h : turn k s = .next t) :
    CallerLeaves s t ∨ DecLeaves s t ∨ EncLeaves s t := by
  cases k with
  | caller u => exact .inl (callerTurn_leaves h)
  | dec => exact .inr (.inl (turn_dec_leaves h))
  | enc => exact .inr (.inr (turn_isEnc_leaves (.inl rfl) h))
  | encToken => exact .inr (.inr (turn_isEnc_leaves (.inr rfl) h))
  | pass => cases h; exact .inl (passByte_leaves s)

/-- Every step that answers next leaves what its turn leaves. -/
theorem step_leaves {s t : State} (h : step s = .next t) :
    CallerLeaves s t ∨ DecLeaves s t ∨ EncLeaves s t := by
  rcases step_next h with ⟨-, rfl⟩ | ⟨k, -, hturn⟩
  · exact .inl (.refl t)
  · rcases turn_leaves hturn with h | h | h
    · exact .inl h.of_setSched
    · exact .inr (.inl h.of_setSched)
    · exact .inr (.inr h.of_setSched)

/-! ### The invariant -/

theorem inv_iff {s : State} :
    s.inv = true ↔
      decOk s.params s.dec = true ∧ encOk s.params s.enc = true ∧
        s.decCh.res.all (decResultOk s.params) = true ∧ s.encCh.res.all encResultOk = true ∧
        loopOk s = true := by
  simp only [State.inv, Bool.and_eq_true, and_assoc]

section
variable {s t : State}

theorem CallerLeaves.keeps_inv (h : CallerLeaves s t) (hinv : s.inv = true) : t.inv = true := by
  obtain ⟨hdec, henc, hdecRes, hencRes, hloop⟩ := inv_iff.1 hinv
  rw [inv_iff, h.params, h.decRes, h.encRes]
  refine ⟨?_, ?_, hdecRes, hencRes, h.loop hloop⟩
  · rcases h.dec with heq | heq <;> rw [heq]
    · exact hdec
    · exact decOk_idle _
  · rcases h.enc with heq | heq <;> rw [heq]
    · exact henc
    · exact encOk_idle _

theorem DecLeaves.keeps_inv (h : DecLeaves s t) (hinv : s.inv = true) : t.inv = true := by
  obtain ⟨hdec, henc, hdecRes, hencRes, hloop⟩ := inv_iff.1 hinv
  rw [inv_iff, h.params, h.enc, h.encCh]
  exact ⟨h.move.keeps_decOk hdec, henc, h.move.keeps_results hdec hdecRes, hencRes,
    loopOk_of_taken_le h.loop (by rw [h.encCh]) hloop⟩

theorem EncLeaves.keeps_inv (h : EncLeaves s t) (hinv : s.inv = true) : t.inv = true := by
  obtain ⟨hdec, henc, hdecRes, hencRes, hloop⟩ := inv_iff.1 hinv
  rw [inv_iff, h.params, h.dec, h.decCh]
  exact ⟨hdec, h.ok henc, hdecRes, h.results henc hencRes, loopOk_of_taken_le h.loop h.taken hloop⟩

end

/-- Settles O53: each kind of turn keeps the invariant on the part it changes. -/
theorem everyStepKeepsTheInvariant : Obligations.EveryStepKeepsTheInvariant := by
  intro s t hinv hstep
  rcases step_leaves hstep with h | h | h
  · exact h.keeps_inv hinv
  · exact h.keeps_inv hinv
  · exact h.keeps_inv hinv

/-- Settles O52: the state of reset, field by field. -/
theorem invariantHoldsAtReset : Obligations.InvariantHoldsAtReset :=
  inv_iff.2 ⟨decOk_idle _, encOk_idle _, rfl, rfl, rfl⟩

/-! ### No stop but that of another user -/

theorem turn_stops {s : State} (k : Turn) (hinv : s.inv = true) : StopsOnlyBySharing (turn k s) := by
  obtain ⟨hdec, henc, -⟩ := inv_iff.1 hinv
  have hisEnc (e : Turn) (he : e.IsEnc) : StopsOnlyBySharing (turn e s) := by
    obtain ⟨u', ch', hturn⟩ := onEnc_of_encOk he henc s.encCh
    exact .inl ⟨_, hturn s rfl rfl rfl⟩
  cases k with
  | caller u => exact callerTurn_stops u s
  | dec =>
    obtain ⟨d', ch', hturn⟩ := decTurn_of_decOk hdec s.decCh
    exact .inl ⟨_, hturn s rfl rfl rfl⟩
  | enc => exact hisEnc .enc (.inl rfl)
  | encToken => exact hisEnc .encToken (.inr rfl)
  | pass => exact .inl ⟨_, rfl⟩

/-- Settles O54: with the invariant the units' turns answer next, and a caller's action stops only by its
refusal. -/
theorem onlySharingAStreamStopsTheMachine : Obligations.OnlySharingAStreamStopsTheMachine := by
  intro s hinv
  have hstops : StopsOnlyBySharing (step s) := by
    cases hnext : s.sched.next with
    | none => exact .inl ⟨s, step_stopped hnext⟩
    | some k => rw [step_turn hnext]; exact turn_stops k hinv
  rcases hstops with ⟨t, ht⟩ | ⟨r, hr, hsharing⟩
  · rw [ht]; exact ⟨nofun, nofun⟩
  · rw [hr]
    refine ⟨nofun, ?_⟩
    rintro r' ⟨⟩
    exact hsharing

/-! ### Two units, two parts of the state -/

theorem step_of_decTurn {s : State} {d' : Dec} {ch' : DecCh} (h : DecTurn s.params s.dec s.decCh d' ch')
    (hnext : s.sched.next = some .dec) :
    step s = .next { s with dec := d', decCh := ch', sched := s.sched.pop } :=
  (step_turn hnext).trans (h (s.setSched s.sched.pop) rfl rfl rfl)

theorem step_of_onEnc {s : State} {e : Turn} {u' : Enc} {ch' : EncCh}
    (h : OnEnc (turn e) s.params s.enc s.encCh u' ch') (hnext : s.sched.next = some e) :
    step s = .next { s with enc := u', encCh := ch', sched := s.sched.pop } :=
  (step_turn hnext).trans (h (s.setSched s.sched.pop) rfl rfl rfl)

/-- Settles O59: each unit's turn is decided by that unit's part of the state and changes that part alone. -/
theorem unitStepsCommute : Obligations.UnitStepsCommute := by
  rintro s e p q r hinv he ⟨hp, hp', rfl⟩ ⟨hq, hq', hr⟩
  obtain ⟨hdec, henc, -⟩ := inv_iff.1 hinv
  obtain ⟨d', ch', hd⟩ := decTurn_of_decOk hdec s.decCh
  obtain ⟨u', eh', hu⟩ := onEnc_of_encOk he henc s.encCh
  refine ⟨{ s with dec := d', decCh := ch', enc := u', encCh := eh', sched := p.pop.pop }, ?_, ?_⟩
  · rw [steps_succ 1 (step_of_decTurn (s := { s with sched := p }) hd hp)]
    exact steps_succ 0 (step_of_onEnc
      (s := { s with dec := d', decCh := ch', sched := p.pop }) hu hp')
  · rw [steps_succ 1 (step_of_onEnc (s := { s with sched := q }) hu hq), ← hr]
    exact steps_succ 0 (step_of_decTurn
      (s := { s with enc := u', encCh := eh', sched := q.pop }) hd hq')

/-! ### The statements over every step -/

/-- Settles O55: a caller delivers nothing, and a unit's turn at most one result of that unit. -/
theorem deliveringAResultLeavesTheUnitIdle : Obligations.DeliveringAResultLeavesTheUnitIdle := by
  intro s t hstep
  rcases step_leaves hstep with h | h | h
  · exact ⟨.inl h.decRes, .inl h.encRes⟩
  · exact ⟨h.move.delivers, .inl (congrArg EncCh.res h.encCh)⟩
  · exact ⟨.inl (congrArg DecCh.res h.decCh), h.delivers⟩

/-- Settles O56: only the turn that accepts a command takes it off its channel. -/
theorem waitingCommandIsNeverDropped : Obligations.WaitingCommandIsNeverDropped := by
  intro s t hstep
  rcases step_leaves hstep with h | h | h
  · exact ⟨fun hcmd => .inl (h.decCmd hcmd), fun p hp => .inl (h.encCmd p hp)⟩
  · refine ⟨fun hcmd => ?_, fun p hp => .inl (h.encCh ▸ hp)⟩
    exact h.move.keeps_command.imp_left fun heq => heq.trans hcmd
  · refine ⟨fun hcmd => .inl (h.decCh ▸ hcmd), fun p hp => ?_⟩
    rcases h.command with heq | ⟨p', hph, hp', haccept⟩
    · exact .inl (heq.trans hp)
    · obtain rfl : p' = p := Option.some.inj (hp'.symm.trans hp)
      refine .inr ⟨hph, ?_⟩
      generalize t.enc = u', t.encCh = ch' at haccept ⊢
      cases haccept with
      | encode => exact .inl rfl
      | refuse => exact .inr (.inr rfl)
      | reject => exact .inr (.inl rfl)

/-- Settles O57: of the turns that stay in `BODY` only one of DEC writes the data. -/
theorem accumulatorOnlyGrowsInABody : Obligations.AccumulatorOnlyGrowsInABody := by
  intro s t hstep hph hph'
  have hsame (heq : t.dec = s.dec) : ∃ l, t.dec.data = s.dec.data ++ l ∧ l.length ≤ 1 :=
    ⟨[], by simp [heq], Nat.zero_le 1⟩
  rcases step_leaves hstep with h | h | h
  · rcases h.dec with heq | hidle
    · exact hsame heq
    · rw [hidle] at hph'; nomatch hph'
  · exact h.move.appends hph hph'
  · exact hsame h.dec

/-- Settles O58: no kind of turn writes the parameters. -/
theorem buildParametersNeverChange : Obligations.BuildParametersNeverChange := by
  intro s t hstep
  rcases step_leaves hstep with h | h | h
  · exact h.params
  · exact h.params
  · exact h.params

end Sys2Proof.Machine
end

section
/-! Frames and bodies as byte sequences (R73 to R78): a body is read in units, a literal or a DLE with the byte
behind it, each of which stores one byte; unstuffing, the stores of a body and the stuffed bytes of the data
are said once for a unit. -/

namespace Sys2Proof.Machine

/-! ### The length of a frame -/

theorem length_stuff (data : List Byte) : (stuff data).length = data.length + data.count DLE := by
  induction data with
  | nil => rfl
  | cons d r ih =>
    rw [stuff_cons, List.length_append, ih, List.length_cons]
    by_cases hd : d = DLE
    · subst hd
      rw [stuffByte_dle, List.count_cons_self, List.length_cons, List.length_singleton]
      omega
    · rw [stuffByte_of_ne hd, List.count_cons_of_ne hd, List.length_singleton]
      omega

/-- Settles O32: the start and terminator pairs, and the stuffed data, one longer for each DLE. -/
theorem frameLengthCountsTheDles : Obligations.FrameLengthCountsTheDles := by
  intro p
  rw [length_frame, length_stuff]; rfl

/-! ### The units of a body -/

/-- A unit of a body and the byte it stores (R76): a byte that is not DLE, or a DLE with a byte behind it that
is not ETX. -/
inductive BodyUnit : List Byte → Byte → Prop where
  | literal {b : Byte} (h : b ≠ DLE) : BodyUnit [b] b
  | pair {b : Byte} (h : b ≠ ETX) : BodyUnit [DLE, b] b

/-- The stuffed bytes of a data byte are a unit that stores it. -/
theorem bodyUnit_stuffByte (d : Byte) : BodyUnit (stuffByte d) d := by
  by_cases hd : d = DLE
  · subst hd; exact .pair etx_ne_dle.symm
  · rw [stuffByte_of_ne hd]; exact .literal hd

/-- Induction over a body: it ends, ends in a withheld DLE, goes on behind a terminator pair, or begins with
a unit. -/
theorem body_induction {P : List Byte → Prop} (nil : P []) (withheld : P [DLE])
    (term : ∀ r, P (DLE :: ETX :: r)) (unit : ∀ w x t, BodyUnit w x → P t → P (w ++ t)) :
    ∀ t, P t
  | [] => nil
  | b :: t => by
    have hlen : t.length < (b :: t).length := Nat.lt_succ_self _
    by_cases hb : b = DLE
    · subst hb
      match t, hlen with
      | [], _ => exact withheld
      | x :: r, _ =>
        by_cases hx : x = ETX
        · subst hx; exact term r
        · exact unit [DLE, x] x r (.pair hx) (body_induction nil withheld term unit r)
    · exact unit [b] b t (.literal hb) (body_induction nil withheld term unit t)
termination_by t => t.length

section
variable {w t : List Byte} {x : Byte}

theorem unstuffGo_unit (h : BodyUnit w x) (t acc : List Byte) (n : Nat) :
    unstuffGo (w ++ t) acc n = unstuffGo t (acc ++ [x]) (n + w.length) := by
  cases h with
  | literal hb => cases t <;> simp [unstuffGo, hb]
  | pair hb => simp [unstuffGo, hb]

theorem bodyStores_unit (h : BodyUnit w x) (t : List Byte) (n : Nat) :
    bodyStores (w ++ t) n = (x, n + w.length) :: bodyStores t (n + w.length) := by
  cases h with
  | literal hb => cases t <;> simp [bodyStores, hb]
  | pair hb => simp [bodyStores, hb]

/-- A unit leaves the counter of a DLE run even. -/
theorem foldl_dleRunNext_unit {n : Nat} (h : BodyUnit w x) (hn : n % 2 = 0) :
    w.foldl (dleRunNext true) n % 2 = 0 := by
  cases h with
  | literal hb => exact dleRunNext_stored_even true (fun h => absurd h hb) (fun _ => hn)
  | pair hb =>
    have hodd : dleRunNext true n DLE % 2 = 1 := by rw [dleRunNext_dle]; omega
    exact dleRunNext_stored_even true (fun _ => hodd) (fun h => absurd h hb)

end

theorem unstuffGo_term (r acc : List Byte) (n : Nat) :
    unstuffGo (DLE :: ETX :: r) acc n = some (acc, n + 2) := by
  simp [unstuffGo]

/-- Unstuffing goes through the stuffed data unit by unit. -/
theorem unstuffGo_stuff (data t acc : List Byte) (n : Nat) :
    unstuffGo (stuff data ++ t) acc n = unstuffGo t (acc ++ data) (n + (stuff data).length) := by
  induction data generalizing acc n with
  | nil => simp
  | cons d r ih =>
    rw [stuff_cons, List.append_assoc, unstuffGo_unit (bodyUnit_stuffByte d), ih]
    simp [Nat.add_assoc]

/-- Settles O34: behind the stuffed data stands the terminator pair. -/
theorem unstuffInvertsStuff : Obligations.UnstuffInvertsStuff := by
  intro d r
  rw [List.append_assoc, unstuff, unstuffGo_stuff]
  exact (unstuffGo_term r _ _).trans (by simp)

/-! ### The frame start -/

/-- A start pair at indices `m` and `m + 1` (R78). -/
def StartPairAt (s : List Byte) (m : Nat) : Prop :=
  s[m]? = some DLE ∧ ∃ b, s[m + 1]? = some b ∧ b ≠ DLE ∧ b ≠ ETX

theorem startPairAt_zero {a b : Byte} {g : List Byte} :
    StartPairAt (a :: b :: g) 0 ↔ (decide (a = DLE) && isOther b) = true := by
  simp [StartPairAt, isOther]

/-- The scan behind `a` answers the OTHER byte of the first start pair. -/
theorem frameStartGo_eq_some {a : Byte} {g : List Byte} {j i : Nat} :
    frameStartGo (decide (a = DLE)) g j = some i ↔
      ∃ m, i = j + m ∧ StartPairAt (a :: g) m ∧ ∀ k, k < m → ¬ StartPairAt (a :: g) k := by
  induction g generalizing a j with
  | nil => simp [frameStartGo, StartPairAt]
  | cons b g ih =>
    rw [frameStartGo]
    by_cases hpair : (decide (a = DLE) && isOther b) = true
    · rw [if_pos hpair, Option.some.injEq]
      constructor
      · rintro rfl
        exact ⟨0, rfl, startPairAt_zero.2 hpair, fun k hk => absurd hk k.not_lt_zero⟩
      · rintro ⟨m, rfl, -, hfirst⟩
        rcases Nat.eq_zero_or_pos m with rfl | hm
        · rfl
        · exact absurd (startPairAt_zero.2 hpair) (hfirst 0 hm)
    · rw [if_neg hpair, ih]
      constructor
      · rintro ⟨m, rfl, hm, hfirst⟩
        refine ⟨m + 1, by omega, hm, fun k hk => ?_⟩
        cases k with
        | zero => exact fun h => hpair (startPairAt_zero.1 h)
        | succ k => exact hfirst k (Nat.lt_of_succ_lt_succ hk)
      · rintro ⟨m, rfl, hm, hfirst⟩
        cases m with
        | zero => exact absurd (startPairAt_zero.1 hm) hpair
        | succ m => exact ⟨m, by omega, hm, fun k hk => hfirst (k + 1) (Nat.succ_lt_succ hk)⟩

/-- The frame start is the index behind the first DLE of the first start pair. -/
theorem frameStart_eq_some {s : List Byte} {i : Nat} :
    frameStart s = some i ↔
      ∃ m, i = m + 1 ∧ StartPairAt s m ∧ ∀ k, k < m → ¬ StartPairAt s k := by
  cases s with
  | nil => simp [frameStart, frameStartGo, StartPairAt]
  | cons a g =>
    have hskip : frameStart (a :: g) = frameStartGo (decide (a = DLE)) g 1 := rfl
    rw [hskip, frameStartGo_eq_some]
    simp only [Nat.add_comm 1]

/-- Settles O35: the indices of the statement are those of the OTHER byte, one behind its DLE. -/
theorem frameStartIsTheFirstStartPair : Obligations.FrameStartIsTheFirstStartPair := by
  intro s i
  rw [frameStart_eq_some]
  constructor
  · rintro ⟨m, rfl, ⟨hdle, hother⟩, hfirst⟩
    refine ⟨⟨by omega, hdle, hother⟩, fun j hj hlt => ?_⟩
    obtain ⟨k, rfl⟩ := Nat.exists_eq_add_of_le' hj
    exact hfirst k (by omega)
  · rintro ⟨⟨hi, hdle, hother⟩, hfirst⟩
    obtain ⟨m, rfl⟩ := Nat.exists_eq_add_of_le' hi
    exact ⟨m, rfl, ⟨hdle, hother⟩, fun k hk => hfirst (k + 1) (by omega) (by omega)⟩

end Sys2Proof.Machine
end

section
/-! Whole runs of DEC (R118, R119): what DEC does with any bytes is what the functional form says of them, in
the scan, in the body unit by unit, and at the result. -/

namespace Sys2Proof.Machine

variable {c : Params}

/-! ### Waiting -/

/-- A unit whose turn changes nothing waits for as many turns as it gets. -/
theorem steps_wait {s : State} {k : Turn} (hwait : ∀ r, turn k (s.setSched r) = .next (s.setSched r))
    {n : Nat} {r : Feed Turn} (hsched : s.sched.yields (List.replicate n k) r) :
    steps n s = .next (s.setSched r) := by
  induction n generalizing s with
  | zero => cases hsched; rfl
  | succ n ih =>
    obtain ⟨hturn, hrest⟩ := hsched
    rw [steps_succ n ((step_turn hturn).trans (hwait _))]
    exact ih hwait hrest

/-- Settles O47: with a silent stream the unit's turn fetches no row. -/
theorem silentStreamIsWaitedForForever : Obligations.SilentStreamIsWaitedForForever := by
  constructor
  · intro s n r hph hsrc hsched
    exact steps_wait (fun _ => turn_dec_waits (fetchDec_no_answer hph hsrc)) hsched
  · intro s n r hph hsnk hsched
    exact steps_wait (fun _ => turn_enc_waits (fetchEnc_no_answer hph hsnk)) hsched

/-! ### The scan -/

/-- A byte that ends no start pair, whatever the other registers hold (R102 to R104). -/
theorem decTakes_scanning {d : Dec} {b : Byte} (hph : d.phase = .scan)
    (h : (d.prevDLE && isOther b) = false) :
    DecTakes c d [.byte b] { d with prevDLE := decide (b = DLE) } [] := by
  rcases classOf_cases b with ⟨rfl, -⟩ | ⟨rfl, -⟩ | ⟨hb, -⟩
  · refine .of_row .scanDle ?_
    rintro s - rfl hsrc
    simpa using scanDleRemembersTheDle s hph hsrc
  · refine .of_row .scanEtx ?_
    rintro s - rfl hsrc
    simpa [etx_ne_dle] using scanEtxForgetsTheDle s hph hsrc
  · obtain ⟨hdle, hetx⟩ := isOther_iff.1 hb
    have hprev : d.prevDLE = false := by simpa [hb] using h
    refine .of_row (.scanSkip b) ?_
    rintro s - rfl hsrc
    simpa [hdle, ← hprev] using scanSkipDiscardsTheByte s b hdle hetx hph hprev hsrc

/-- Bytes that hold no start pair are discarded, and `prevDLE` tells whether the last was DLE. -/
theorem decTakes_scanning_bytes {d : Dec} {g : List Byte} {i : Nat} (hph : d.phase = .scan)
    (h : frameStartGo d.prevDLE g i = none) :
    DecTakes c d (g.map .byte)
      { d with prevDLE := g.foldl (fun _ b => decide (b = DLE)) d.prevDLE } [] := by
  induction g generalizing d i with
  | nil => exact .nil c d
  | cons b g ih =>
    cases hpair : d.prevDLE && isOther b with
    | true => simp [frameStartGo, hpair] at h
    | false =>
      simp only [frameStartGo, hpair] at h
      exact (decTakes_scanning hph hpair).append (ih (d := { d with prevDLE := _ }) hph h)

theorem foldl_isDle (g : List Byte) :
    g.foldl (fun _ b => decide (b = DLE)) false = decide (g.getLast? = some DLE) := by
  rcases List.eq_nil_or_concat g with rfl | ⟨g, b, rfl⟩ <;> simp

/-- The scan ends in a body at the byte that the scan of R78 finds. -/
theorem decTakes_to_body {s : List Byte} {prev : Bool} {j i : Nat} (h : frameStartGo prev s j = some i) :
    ∃ g b t, s = g ++ b :: t ∧ i = j + g.length ∧
      DecTakes c (.inScan prev) ((g ++ [b]).map .byte) (.inBody true (some b) false []) [] := by
  induction s generalizing prev j with
  | nil => nomatch h
  | cons a s ih =>
    cases hpair : prev && isOther a with
    | true =>
      simp only [frameStartGo, hpair, if_true, Option.some.injEq] at h
      obtain ⟨rfl, hother⟩ := (Bool.and_eq_true _ _).mp hpair
      exact ⟨[], a, s, rfl, h.symm, decTakes_start hother⟩
    | false =>
      simp only [frameStartGo, hpair] at h
      obtain ⟨g, b, t, rfl, rfl, hrun⟩ := ih h
      exact ⟨a :: g, b, t, rfl, by simp only [List.length_cons]; omega,
        (decTakes_scan hpair).append hrun⟩

/-! ### The body -/

/-- One answer: what the turn that takes it does. -/
theorem DecTakes.of_turn {d d' : Dec} {a : SrcAnswer} {out : List DecResult}
    (h : ∀ s : State, s.params = c → s.dec = d → s.decCh.src.next = some a →
      turn .dec s = .next
        { s with
          dec := d'
          decCh := { s.decCh with src := s.decCh.src.pop, res := s.decCh.res ++ out } }) :
    DecTakes c d [a] d' out := by
  rintro s q r hc hd ⟨hsrc, rfl⟩ ⟨hturn, rfl⟩
  exact steps_succ 0 ((step_turn hturn).trans (h (s.setSched s.sched.pop) hc hd hsrc))

section
variable {prev odd : Bool} {id : Option Byte} {acc w t : List Byte} {b x : Byte} {n : Nat}

/-- A byte that is stored ends the command where the accumulator is full (R114). -/
theorem decTakes_store_full (hfull : c.maxData = some acc.length) (hdle : b = DLE → odd = true)
    (hetx : b = ETX → odd = false) :
    DecTakes c (.inBody prev id odd acc) [.byte b] .idle [.overflow] := by
  refine .of_turn fun s hc hd hsrc => ?_
  rw [turn_dec_store (by rw [hd]; rfl) hsrc (by rw [hd]; exact hdle) (by rw [hd]; exact hetx),
    setDleOdd_false_storeByte_takeAnswer, if_pos (by rw [hc, hd]; exact hfull)]

/-- A unit is stored where there is room. -/
theorem decTakes_unit (h : BodyUnit w x) (hroom : c.maxData ≠ some acc.length) :
    DecTakes c (.inBody prev id false acc) (w.map .byte) (.inBody prev id false (acc ++ [x])) [] := by
  cases h with
  | literal hb => exact decTakes_literal hroom hb (by simp)
  | pair hb =>
    refine decTakes_withhold.append ?_
    by_cases hx : x = DLE
    · subst hx; exact decTakes_pair hroom
    · exact decTakes_literal hroom hx fun h => hb h.2

/-- The last byte of a unit is refused where the accumulator is full. -/
theorem decTakes_unit_full (h : BodyUnit w x) (hfull : c.maxData = some acc.length) :
    DecTakes c (.inBody prev id false acc) (w.map .byte) .idle [.overflow] := by
  cases h with
  | literal hb => exact decTakes_store_full hfull (fun h => absurd h hb) (fun _ => rfl)
  | pair hb => exact decTakes_withhold.append (decTakes_store_full hfull (fun _ => rfl) fun h => absurd h hb)

/-- The command ends in Overflow at the store that finds the accumulator full (R211). -/
theorem decTakes_body_overflow {i j : Nat} (h : (bodyStores t n)[i]? = some (x, j))
    (hfull : c.maxData = some (acc.length + i)) :
    ∃ l r, t = l ++ r ∧ j = n + l.length ∧
      DecTakes c (.inBody prev id false acc) (l.map .byte) .idle [.overflow] := by
  induction t using body_induction generalizing acc n i with
  | nil => nomatch h
  | withheld => nomatch h
  | term r => nomatch h
  | unit w y t hunit ih =>
    rw [bodyStores_unit hunit] at h
    cases i with
    | zero =>
      obtain ⟨-, rfl⟩ := Prod.mk.inj (Option.some.inj h)
      exact ⟨w, t, rfl, rfl, decTakes_unit_full hunit hfull⟩
    | succ i =>
      have hroom : c.maxData ≠ some acc.length := by rw [hfull]; simp
      have hfull' : c.maxData = some ((acc ++ [y]).length + i) := by
        rw [hfull, List.length_append, List.length_singleton, Nat.add_assoc, Nat.add_comm 1]
      obtain ⟨l, r, rfl, rfl, hrun⟩ := ih h hfull'
      refine ⟨w ++ l, r, (List.append_assoc ..).symm, by rw [List.length_append, Nat.add_assoc], ?_⟩
      rw [List.map_append]
      exact (decTakes_unit hunit hroom).append hrun

/-- Room for all that a body stores is room for its first unit and for the rest. -/
theorem room_of_unit (hunit : BodyUnit w x)
    (hmax : withinMax c (acc.length + (bodyStores (w ++ t) n).length) = true) :
    c.maxData ≠ some acc.length ∧
      withinMax c ((acc ++ [x]).length + (bodyStores t (n + w.length)).length) = true := by
  rw [bodyStores_unit hunit, List.length_cons] at hmax
  refine ⟨room_of_withinMax hmax (by omega), ?_⟩
  rwa [List.length_append, List.length_singleton, Nat.add_assoc, Nat.add_comm 1]

/-- A body with a terminator pair, within `MAX_DATA`, delivers what unstuffing gives (R77). -/
theorem decTakes_body_ok {id : Byte} {d : List Byte} {j : Nat} (h : unstuffGo t acc n = some (d, j))
    (hmax : withinMax c (acc.length + (bodyStores t n).length) = true) :
    ∃ l r, t = l ++ r ∧ j = n + l.length ∧
      DecTakes c (.inBody prev (some id) false acc) (l.map .byte) .idle [.ok { id := id, data := d }] := by
  induction t using body_induction generalizing acc n with
  | nil => nomatch h
  | withheld => nomatch h
  | term r =>
    rw [unstuffGo_term] at h
    obtain ⟨rfl, rfl⟩ := Prod.mk.inj (Option.some.inj h)
    exact ⟨[DLE, ETX], r, rfl, rfl, decTakes_withhold.append decTakes_term⟩
  | unit w x t hunit ih =>
    obtain ⟨hroom, hmax'⟩ := room_of_unit hunit hmax
    rw [unstuffGo_unit hunit] at h
    obtain ⟨l, r, rfl, rfl, hrun⟩ := ih h hmax'
    refine ⟨w ++ l, r, (List.append_assoc ..).symm, by rw [List.length_append, Nat.add_assoc], ?_⟩
    rw [List.map_append]
    exact (decTakes_unit hunit hroom).append hrun

/-- A body without a terminator pair, within `MAX_DATA`, is read to its end: what it stores is stored, and
the parity is that of the last DLE run. -/
theorem decTakes_body_open {a : List Byte} {m : Nat} (h : unstuffGo t a n = none) (hm : m % 2 = 0)
    (hmax : withinMax c (acc.length + (bodyStores t n).length) = true) :
    DecTakes c (.inBody prev id false acc) (t.map .byte)
      (.inBody prev id (decide (t.foldl (dleRunNext true) m % 2 = 1))
        (acc ++ (bodyStores t n).map Prod.fst)) [] := by
  induction t using body_induction generalizing a acc n m with
  | nil =>
    have hparity : decide (m % 2 = 1) = false := decide_eq_false (by omega)
    rw [List.foldl_nil, hparity]
    simpa [bodyStores] using DecTakes.nil c _
  | withheld =>
    have hparity : decide ((m + 1) % 2 = 1) = true := decide_eq_true (by omega)
    rw [List.foldl_cons, List.foldl_nil, dleRunNext_dle, hparity]
    simpa [bodyStores] using decTakes_withhold
  | term r => simp [unstuffGo_term] at h
  | unit w x t hunit ih =>
    obtain ⟨hroom, hmax'⟩ := room_of_unit hunit hmax
    rw [unstuffGo_unit hunit] at h
    have hrest := ih h (foldl_dleRunNext_unit hunit hm) hmax'
    rw [bodyStores_unit hunit, List.map_append, List.foldl_append]
    simpa using (decTakes_unit hunit hroom).append hrest

end

/-! ### The functional form -/

/-- A failing answer ends the command in both phases (R112, R113). -/
theorem decTakes_abort {d : Dec} (hph : d.phase = .scan ∨ d.phase = .body) :
    DecTakes c d [.eos] .idle [.eos] ∧ ∀ e, DecTakes c d [.err e] .idle [.srcErr e] := by
  refine ⟨.of_row .srcEos ?_, fun e => .of_row (.srcErr e) ?_⟩
  · rintro s - rfl hsrc
    exact sourceEndAbortsTheDecode s hph hsrc
  · rintro s - rfl hsrc
    exact sourceErrorAbortsTheDecode s e hph hsrc

/-- DEC, just started, reads `s`: it ends with the result and at the byte that the functional form says, or,
where that gives no result, reads `s` to its end and goes on. -/
theorem decTakes_decodeStream (c : Params) (s : List Byte) :
    (∃ l r res, s = l ++ r ∧ decodeStream c.maxData s = (res, l.length) ∧ res ≠ .eos ∧
      DecTakes c (.inScan false) (l.map .byte) .idle [res]) ∨
    (decodeStream c.maxData s = (.eos, s.length) ∧
      ∃ d, (d.phase = .scan ∨ d.phase = .body) ∧ DecTakes c (.inScan false) (s.map .byte) d []) := by
  cases hstart : frameStart s with
  | none =>
    obtain ⟨prev, hscan⟩ := decTakes_scan_no_start (c := c) hstart
    exact .inr ⟨by simp [decodeStream, hstart], _, .inl rfl, hscan⟩
  | some i =>
    obtain ⟨g, b, t, rfl, hi, hscan⟩ := decTakes_to_body (c := c) hstart
    rw [Nat.zero_add] at hi
    subst hi
    have hlen (l : List Byte) : (g ++ [b] ++ l).length = g.length + 1 + l.length := by simp; omega
    cases hover : c.maxData.bind fun m => (bodyStores t 0)[m]? with
    | some y =>
      obtain ⟨m, hm, hstore⟩ := Option.bind_eq_some_iff.1 hover
      obtain ⟨l, r, rfl, hn, hrun⟩ := decTakes_body_overflow (c := c) (prev := true) (id := some b)
        (acc := []) hstore (by simpa using hm)
      refine .inl ⟨g ++ [b] ++ l, r, .overflow, by simp, ?_, by simp, ?_⟩
      · rw [hlen]; simp [decodeStream, hstart, hover, hn]
      · rw [List.map_append]; exact hscan.append hrun
    | none =>
      have hmax : withinMax c (([] : List Byte).length + (bodyStores t 0).length) = true := by
        refine withinMax_iff.2 fun m hm => ?_
        rw [hm, Option.bind_some] at hover
        simpa using hover
      cases hun : unstuff t with
      | none =>
        have hbody := decTakes_body_open (prev := true) (id := some b) hun (m := 0) rfl hmax
        have hrun := hscan.append hbody
        rw [← List.map_append, ← List.append_cons] at hrun
        refine .inr ⟨by simp [decodeStream, hstart, hover, hun], _, .inr ?_, hrun⟩
        rfl
      | some y =>
        obtain ⟨d, n⟩ := y
        obtain ⟨l, r, rfl, hn, hrun⟩ := decTakes_body_ok (c := c) (prev := true) (id := b) hun hmax
        refine .inl ⟨g ++ [b] ++ l, r, .ok { id := b, data := d }, by simp, ?_, by simp, ?_⟩
        · rw [hlen]; simp [decodeStream, hstart, hover, hun, hn]
        · rw [List.map_append]; exact hscan.append hrun

/-! ### The statements -/

/-- Settles O39: the run of the functional form, and where it gives no result the failing answer behind the
bytes. -/
theorem decodeRefinesItsFunctionalForm : Obligations.DecodeRefinesItsFunctionalForm := by
  intro s bytes res n answers delivered q r hph hcmd hform hanswers hsrc hsched
  have hrun : DecTakes s.params (.inScan false) answers .idle [delivered] := by
    rcases decTakes_decodeStream s.params bytes with ⟨l, t, res', rfl, hform', hres, hrun⟩ |
        ⟨hform', d, hd, hrun⟩
    · obtain ⟨rfl, rfl⟩ := Prod.mk.inj (hform.symm.trans hform')
      rcases hanswers with ⟨-, rfl, rfl⟩ | ⟨heos, -⟩ | ⟨heos, -⟩
      · simpa using hrun
      · exact absurd heos hres
      · exact absurd heos hres
    · obtain ⟨rfl, rfl⟩ := Prod.mk.inj (hform.symm.trans hform')
      obtain ⟨heos, herr⟩ := decTakes_abort (c := s.params) hd
      rcases hanswers with ⟨hres, -⟩ | ⟨-, rfl, rfl⟩ | ⟨-, e, rfl, rfl⟩
      · exact absurd rfl hres
      · exact hrun.append heos
      · exact hrun.append (herr e)
  exact steps_decode_then hrun hph hcmd hsrc hsched

/-- Settles O41: the scan passes the garbage, `MAX_DATA` bytes are stored, and the next store is refused. -/
theorem frameBeyondMaxDataOverflows : Obligations.FrameBeyondMaxDataOverflows := by
  rintro s p m d g read q r hdle hetx hmax hd hg hph hcmd rfl hsrc hsched
  obtain ⟨prev, hscan⟩ := decTakes_scan_no_start (c := s.params) (frameStart_of_noStartPair hg)
  have hpair : DecTakes s.params (.inScan prev) [.byte DLE] (.inScan true) [] :=
    decTakes_scan (by cases prev <;> rfl)
  have hstart : DecTakes s.params (.inScan true) [.byte p.id] (.inBody true (some p.id) false []) [] :=
    decTakes_start (isOther_iff.2 ⟨hdle, hetx⟩)
  have hlen : (p.data.take m).length = m :=
    List.length_take_of_le (Nat.le_of_lt (List.getElem?_eq_some_iff.1 hd).1)
  have hdata := decTakes_stuff (c := s.params) (prev := true) (id := some p.id) (acc := [])
    (p.data.take m) (withinMax_iff.2 fun k hk => by
      obtain rfl : m = k := Option.some.inj (hmax.symm.trans hk)
      simp)
  have hlast := decTakes_unit_full (c := s.params) (prev := true) (id := some p.id)
    (acc := p.data.take m) (bodyUnit_stuffByte d) (by rw [hmax, hlen])
  have hrun : DecTakes s.params (.inScan false)
      ((g ++ [DLE, p.id] ++ stuff (p.data.take (m + 1))).map .byte) .idle [.overflow] := by
    rw [stuff_take_succ hd]
    simpa using hscan.append (hpair.append (hstart.append (hdata.append hlast)))
  have hcount : (g ++ [DLE, p.id] ++ stuff (p.data.take (m + 1))).length =
      ((g ++ [DLE, p.id] ++ stuff (p.data.take (m + 1))).map SrcAnswer.byte).length :=
    (List.length_map _).symm
  rw [show (0x10#8 : Byte) = DLE from rfl, hcount] at hsched ⊢
  exact steps_decode_then hrun hph hcmd hsrc hsched

/-- Settles O48: the bytes are read unit by unit in a body and byte by byte in a scan, and on an endless
source every prefix without a result leaves the command in progress. -/
theorem endlessBodyIsReadForever : Obligations.EndlessBodyIsReadForever := by
  refine ⟨?_, ?_, ?_⟩
  · intro s bytes q r hph hodd hopen hmax hsrc hsched
    have hbody : s.dec = .inBody s.dec.prevDLE s.dec.id false s.dec.data := by
      rw [← hodd]; exact Dec.eq_inBody hph
    have hrun := decTakes_body_open (c := s.params) (prev := s.dec.prevDLE) (id := s.dec.id)
      (m := 0) hopen rfl hmax
    have hsteps := hrun s q r rfl hbody hsrc (by simpa using hsched)
    simpa [Dec.inBody, hph] using hsteps
  · intro s bytes q r hph hprev hopen hsrc hsched
    have hrun := decTakes_scanning_bytes (c := s.params) (d := s.dec) (i := 0) hph
      (by rw [hprev]; exact hopen)
    rw [hprev, foldl_isDle] at hrun
    have hsteps := hrun s q r rfl rfl hsrc (by simpa using hsched)
    rw [List.length_map, List.append_nil] at hsteps
    exact hsteps
  · intro s f hph hcmd hopen hsrc hsched n
    obtain ⟨q, hq⟩ := hsrc n
    obtain ⟨r, hr⟩ := hsched (1 + n)
    rcases decTakes_decodeStream s.params ((List.range n).map f) with ⟨l, t, res, -, hform, hres, -⟩ |
        ⟨-, d, hd, hrun⟩
    · exact absurd ((congrArg Prod.fst hform).symm.trans (hopen n)) hres
    · have hsteps := steps_decode_then hrun hph hcmd (by rw [List.map_map]; exact hq) (by simpa using hr)
      simp only [List.length_map, List.length_range, List.append_nil] at hsteps
      rw [Nat.add_comm 1 n] at hsteps
      refine ⟨_, hsteps, ?_, rfl⟩
      rcases hd with h | h <;> simp [h]

end Sys2Proof.Machine
end

section
/-! Whole runs of ENC (R149, R150): `EncTakes` says what a sequence of replies does to ENC's registers, which
bytes it puts into the sink and what it delivers, with everything else unchanged. -/

namespace Sys2Proof.Machine

/-- With parameters `c`, ENC takes the replies `l` from registers `u` to registers `u'`, one turn each, puts
the bytes `w` into the sink, delivers the results `out` and changes nothing else. -/
def EncTakes (c : Params) (u : Enc) (l : List SnkReply) (u' : Enc) (w : List Byte)
    (out : List EncResult) : Prop :=
  ∀ (s : State) (q : Feed SnkReply) (r : Feed Turn), s.params = c → s.enc = u →
    s.encCh.snk.replies.yields l q → s.sched.yields (List.replicate l.length .enc) r →
    steps l.length s = .next
      { s with
        enc := u'
        encCh := { s.encCh with
          snk := { replies := q, taken := s.encCh.snk.taken ++ w }
          res := s.encCh.res ++ out }
        sched := r }

section
variable {c : Params}

/-- No reply, no turn. -/
theorem EncTakes.nil (c : Params) (u : Enc) : EncTakes c u [] u [] [] := by
  intro s q r _ hu hsnk hsched
  cases hu; cases hsnk; cases hsched
  simp

/-- Replies one after another. -/
theorem EncTakes.append {u u' u'' : Enc} {l m : List SnkReply} {w w' : List Byte}
    {out out' : List EncResult} (hl : EncTakes c u l u' w out) (hm : EncTakes c u' m u'' w' out') :
    EncTakes c u (l ++ m) u'' (w ++ w') (out ++ out') := by
  intro s q r hc hu hsnk hsched
  rw [List.length_append] at hsched ⊢
  rw [List.replicate_add] at hsched
  obtain ⟨q₁, hsnkl, hsnkm⟩ := Feed.yields_append.1 hsnk
  obtain ⟨r₁, hschedl, hschedm⟩ := Feed.yields_append.1 hsched
  rw [steps_add (hl s q₁ r₁ hc hu hsnkl hschedl), ← List.append_assoc, ← List.append_assoc]
  exact hm _ q r hc rfl hsnkm hschedm

/-- One reply: what the turn that takes it does. -/
theorem EncTakes.of_turn {u u' : Enc} {a : SnkReply} {w : List Byte} {out : List EncResult}
    (h : ∀ s : State, s.params = c → s.enc = u → s.encCh.snk.next = some a →
      turn .enc s = .next
        { s with
          enc := u'
          encCh := { s.encCh with
            snk := { s.encCh.snk.pop with taken := s.encCh.snk.taken ++ w }
            res := s.encCh.res ++ out } }) :
    EncTakes c u [a] u' w out := by
  rintro s q r hc hu ⟨hsnk, rfl⟩ ⟨hturn, rfl⟩
  exact steps_succ 0 ((step_turn hturn).trans (h (s.setSched s.sched.pop) hc hu hsnk))

/-! ### One byte of `W` -/

/-- The registers that offer `W[k]`. -/
def Enc.writing (ph : EncPhase) (p : Packet) (k : Nat) : Enc := { phase := ph, pkt := some p, k := some k }

variable {ph : EncPhase} {p : Packet} {k : Nat} {b : Byte}

theorem Offering.of_writing_at {s : State} (hu : s.enc = .writing ph p k)
    (hb : (wire s.params ph p)[k]? = some b) : Offering s p k b := by
  constructor <;> rw [hu]
  · rfl
  · rfl
  · exact hb

/-- A byte that is not the last is taken and the next is offered (R146). -/
theorem encTakes_ack (hb : (wire c ph p)[k]? = some b) (hmore : k + 1 < (wire c ph p).length) :
    EncTakes c (.writing ph p k) [.ack] (.writing ph p (k + 1)) [b] [] := by
  refine .of_turn fun s hc hu hsnk => ?_
  subst hc
  have hoffer := Offering.of_writing_at hu hb
  rw [turn_enc_busy hoffer.phase_ne_idle, writeBytes_one_ack hsnk,
    sinkAck_of_more hoffer (by rw [hu]; exact hmore), List.append_nil, offerNext, hu]
  rfl

/-- The last byte is taken and the result delivered (R146). -/
theorem encTakes_last (hb : (wire c ph p)[k]? = some b) (hlast : (wire c ph p).length = k + 1) :
    EncTakes c (.writing ph p k) [.ack] .idle [b] [if ph = .emit then .ok else .invalidId p.id] := by
  refine .of_turn fun s hc hu hsnk => ?_
  subst hc
  have hoffer := Offering.of_writing_at hu hb
  have hdone : ¬ k + 1 < (wire s.params s.enc.phase p).length := by
    rw [hu]; exact hlast.not_gt
  rw [turn_enc_busy hoffer.phase_ne_idle, writeBytes_one_ack hsnk, sinkAck_offering hoffer,
    advance_takeReply, if_neg hdone, hu]
  rfl

/-- A failing write ends the command, its byte in the sink or not (R60, R147). -/
theorem encTakes_err (hb : (wire c ph p)[k]? = some b) (e : SnkErr) (landed : Bool) :
    EncTakes c (.writing ph p k) [.err e landed] .idle (if landed then [b] else []) [.snkErr e] := by
  refine .of_turn fun s hc hu hsnk => ?_
  subst hc
  have hoffer := Offering.of_writing_at hu hb
  rw [turn_enc_busy hoffer.phase_ne_idle, writeBytes_err 0 hsnk, sinkErr_offering hoffer hsnk]

/-! ### The bytes of `W` one after another -/

/-- Fewer than `|W|` bytes are taken and ENC offers the next. -/
theorem encTakes_acks {n : Nat} (hn : n < (wire c ph p).length) :
    EncTakes c (.writing ph p 0) (List.replicate n .ack) (.writing ph p n) ((wire c ph p).take n) [] := by
  induction n with
  | zero => exact .nil c _
  | succ n ih =>
    have hb : (wire c ph p)[n]? = some (wire c ph p)[n] := List.getElem?_eq_getElem _
    rw [List.replicate_succ', List.take_add_one, hb]
    exact (ih (Nat.lt_of_succ_lt hn)).append (encTakes_ack hb hn)

/-- All of `W` is taken and the result delivered. -/
theorem encTakes_wire (hpos : 0 < (wire c ph p).length) :
    EncTakes c (.writing ph p 0) (List.replicate (wire c ph p).length .ack) .idle (wire c ph p)
      [if ph = .emit then .ok else .invalidId p.id] := by
  obtain ⟨n, hn⟩ := Nat.exists_eq_add_of_lt hpos
  rw [Nat.zero_add] at hn
  have hb : (wire c ph p)[n]? = some (wire c ph p)[n] := List.getElem?_eq_getElem (by omega)
  have hrun := (encTakes_acks (c := c) (ph := ph) (p := p) (n := n) (by omega)).append
    (encTakes_last hb hn)
  have htake : (wire c ph p).take n ++ [(wire c ph p)[n]] = wire c ph p := by
    rw [List.take_append_getElem, List.take_of_length_le hn.le]
  rwa [htake, ← List.replicate_succ', List.nil_append, ← hn] at hrun

/-- A write of `W[n]` that fails behind `n` bytes that are taken. -/
theorem encTakes_fail {n : Nat} (hn : n < (wire c ph p).length) (e : SnkErr) (landed : Bool) :
    EncTakes c (.writing ph p 0) (List.replicate n .ack ++ [.err e landed]) .idle
      ((wire c ph p).take (if landed then n + 1 else n)) [.snkErr e] := by
  have hb : (wire c ph p)[n]? = some (wire c ph p)[n] := List.getElem?_eq_getElem _
  have hrun := (encTakes_acks hn).append (encTakes_err hb e landed)
  cases landed with
  | true => simpa using hrun
  | false => simpa using hrun

end

/-! ### The acceptance -/

section
variable {c : Params} {u : Enc} {ch : EncCh} {p : Packet}

/-- An encodable packet is latched for its frame (R141). -/
theorem onEnc_encode (hp : p.encodable = true) (hph : u.phase = .idle) (hcmd : ch.cmd = some p) :
    OnEnc (turn .enc) c u ch (.writing .emit p 0) { ch with cmd := none } := by
  obtain ⟨u', ch', haccept, hturn⟩ := onEnc_accept (e := .enc) (c := c) (.inl rfl) hph hcmd
  cases haccept with
  | encode => exact hturn
  | refuse h => simp [hp] at h
  | reject h => simp [hp] at h

/-- A packet with a reserved id is latched for the part of its start that is written (R142). -/
theorem onEnc_reject (hp : p.encodable = false) (hlen : c.rejectLen ≠ 0) (hph : u.phase = .idle)
    (hcmd : ch.cmd = some p) :
    OnEnc (turn .enc) c u ch (.writing .reject p 0) { ch with cmd := none } := by
  obtain ⟨u', ch', haccept, hturn⟩ := onEnc_accept (e := .enc) (c := c) (.inl rfl) hph hcmd
  cases haccept with
  | encode h => simp [hp] at h
  | refuse _ h => exact absurd h hlen
  | reject => exact hturn

/-- With `REJECT_PREFIX_LEN` 0 it is refused at once. -/
theorem onEnc_refuse (hp : p.encodable = false) (hlen : c.rejectLen = 0) (hph : u.phase = .idle)
    (hcmd : ch.cmd = some p) :
    OnEnc (turn .enc) c u ch .idle { ch with cmd := none, res := ch.res ++ [.invalidId p.id] } := by
  obtain ⟨u', ch', haccept, hturn⟩ := onEnc_accept (e := .enc) (c := c) (.inl rfl) hph hcmd
  cases haccept with
  | encode h => simp [hp] at h
  | refuse => exact hturn
  | reject _ h => exact absurd hlen h

end

/-- The waiting command is accepted, and then the replies are taken. -/
theorem steps_encode_then {s : State} {u u' : Enc} {l : List SnkReply} {w : List Byte}
    {out : List EncResult} {q : Feed SnkReply} {r : Feed Turn}
    (haccept : OnEnc (turn .enc) s.params s.enc s.encCh u { s.encCh with cmd := none })
    (hl : EncTakes s.params u l u' w out) (hsnk : s.encCh.snk.replies.yields l q)
    (hsched : s.sched.yields (List.replicate (1 + l.length) .enc) r) :
    steps (1 + l.length) s = .next
      { s with
        enc := u'
        encCh :=
          { cmd := none
            snk := { replies := q, taken := s.encCh.snk.taken ++ w }
            res := s.encCh.res ++ out }
        sched := r } := by
  rw [Nat.add_comm, List.replicate_succ] at hsched
  obtain ⟨hturn, hrest⟩ := hsched
  rw [Nat.add_comm, steps_succ _ (step_of_onEnc haccept hturn)]
  exact hl _ q r rfl rfl hsnk hrest

theorem length_wire_reject (c : Params) (p : Packet) : (wire c .reject p).length = c.rejectLen.val := by
  rw [wire_reject, List.length_take]
  exact Nat.min_eq_left (Nat.le_of_lt_succ c.rejectLen.isLt)

/-! ### The statements -/

/-- Settles O42: the packet is latched and all of its frame is taken. -/
theorem encodeWritesExactlyTheFrame : Obligations.EncodeWritesExactlyTheFrame := by
  intro s p q r hdle hetx hph hcmd hsnk hsched
  have hrun := encTakes_wire (c := s.params) (ph := .emit) (p := p) (by simp [wire])
  have haccept := onEnc_encode (c := s.params) (encodable_iff.2 ⟨hdle, hetx⟩) hph hcmd
  have hlen : (List.replicate (wire s.params .emit p).length SnkReply.ack).length =
      (frame p).length := List.length_replicate
  rw [← hlen] at hsched ⊢
  exact steps_encode_then haccept hrun hsnk hsched

/-- Settles O43: a frame and the part of a refused packet's start are written alike up to the failing
write. -/
theorem failedWriteLeavesAPartialFrame : Obligations.FailedWriteLeavesAPartialFrame := by
  intro s p w n e landed q r hw hph hcmd hn hsnk hsched
  have hstart : ∃ ph, w = wire s.params ph p ∧
      OnEnc (turn .enc) s.params s.enc s.encCh (.writing ph p 0) { s.encCh with cmd := none } := by
    rcases hw with ⟨hdle, hetx, rfl⟩ | ⟨hid, rfl⟩
    · exact ⟨.emit, rfl, onEnc_encode (encodable_iff.2 ⟨hdle, hetx⟩) hph hcmd⟩
    · refine ⟨.reject, rfl, onEnc_reject (not_encodable_iff.2 hid) (fun hzero => ?_) hph hcmd⟩
      simp [hzero] at hn
  obtain ⟨ph, rfl, haccept⟩ := hstart
  have hlen : n + 2 = 1 + (List.replicate n SnkReply.ack ++ [SnkReply.err e landed]).length := by
    rw [List.length_append, List.length_replicate, List.length_singleton]; omega
  rw [hlen] at hsched ⊢
  exact steps_encode_then haccept (encTakes_fail hn e landed) hsnk hsched

/-- Settles O44: at once with `REJECT_PREFIX_LEN` 0, and else behind the bytes of the start that are
written. -/
theorem refusedPacketLeavesOnlyItsStart : Obligations.RefusedPacketLeavesOnlyItsStart := by
  intro s p q r hid hph hcmd hsnk hsched
  have hp : p.encodable = false := not_encodable_iff.2 hid
  by_cases hlen : s.params.rejectLen = 0
  · have hzero : s.params.rejectLen.val = 0 := congrArg Fin.val hlen
    rw [hzero] at hsnk hsched ⊢
    obtain ⟨hturn, rfl⟩ := hsched
    obtain rfl : s.encCh.snk.replies = q := hsnk
    rw [steps_succ 0 (step_of_onEnc (onEnc_refuse hp hlen hph hcmd) hturn)]
    simp
  · have hwire := length_wire_reject s.params p
    have hpos : 0 < (wire s.params .reject p).length := by
      rw [hwire]; exact Nat.pos_of_ne_zero fun h => hlen (Fin.ext h)
    have hcount : (List.replicate (wire s.params .reject p).length SnkReply.ack).length =
        s.params.rejectLen.val := by rw [List.length_replicate, hwire]
    rw [← hwire] at hsnk
    rw [← hcount] at hsched
    have hsteps := steps_encode_then (onEnc_reject hp hlen hph hcmd) (encTakes_wire hpos) hsnk hsched
    rw [hcount] at hsteps
    exact hsteps

/-! ### Through a loopback -/

/-- The transport's turns append the bytes the looped sink took to the source's listed answers (R64). -/
theorem steps_pass {s : State} {k : Nat} {l : List Byte} {r : Feed Turn} (hloop : s.loop = some k)
    (htaken : s.encCh.snk.taken.drop k = l)
    (hsched : s.sched.yields (List.replicate l.length .pass) r) :
    steps l.length s = .next
      { s with
        decCh := { s.decCh with
          src := { s.decCh.src with listed := s.decCh.src.listed ++ l.map .byte } }
        loop := some (k + l.length)
        sched := r } := by
  induction l generalizing s k with
  | nil =>
    obtain rfl : s.sched = r := hsched
    simp [← hloop]
  | cons b l ih =>
    obtain ⟨hturn, hrest⟩ := hsched
    have hb : s.encCh.snk.taken[k]? = some b := by
      rw [← Nat.add_zero k, ← List.getElem?_drop, htaken]; rfl
    have htaken' : s.encCh.snk.taken.drop (k + 1) = l := by
      rw [← List.drop_drop, htaken]; rfl
    have hpass : step s = .next
        { s with
          decCh := { s.decCh with
            src := { s.decCh.src with listed := s.decCh.src.listed ++ [.byte b] } }
          loop := some (k + 1)
          sched := s.sched.pop } := by
      rw [step_turn hturn, turn, passByte]
      simp only [State.setSched_loop, hloop, State.setSched_encCh, hb]
      rfl
    rw [List.length_cons, steps_succ _ hpass, ih (k := k + 1)]
    · simp [Nat.add_assoc, Nat.add_comm 1]
    · rfl
    · exact htaken'
    · exact hrest

/-- A sequence with nothing listed gives what is appended to it and is then as before. -/
theorem Feed.yields_appended {α : Type} [Inhabited α] {q : Feed α} (h : q.listed = []) (l : List α) :
    Feed.yields { q with listed := q.listed ++ l } l q := by
  obtain ⟨listed, after⟩ := q
  obtain rfl : listed = [] := h
  simpa using Feed.yields_listed l [] after

/-- Settles O45: ENC writes the frame, the transport passes it, and DEC reads it. -/
theorem loopbackReturnsThePacket : Obligations.LoopbackReturnsThePacket := by
  intro s p q r n hdle hetx hmax heph hecmd hdph hdcmd hlisted hloop hn hsnk hsched
  subst hn
  obtain ⟨r₂, hsched₁₂, hsched₃⟩ := Feed.yields_append.1 hsched
  obtain ⟨r₁, hsched₁, hsched₂⟩ := Feed.yields_append.1 hsched₁₂
  have hencode := encodeWritesExactlyTheFrame s p q r₁ hdle hetx heph hecmd hsnk hsched₁
  rw [Nat.add_assoc, steps_add hencode]
  have hpass := steps_pass (s := { s with
      enc := Enc.idle
      encCh :=
        { cmd := none
          snk := { replies := q, taken := s.encCh.snk.taken ++ frame p }
          res := s.encCh.res ++ [.ok] }
      sched := r₁ }) hloop List.drop_left hsched₂
  rw [steps_add hpass]
  have hsource := Feed.yields_appended hlisted (([] ++ frame p).map .byte)
  exact decodeResynchronisesToTheFrame _ p [] s.decCh.src r _ hdle hetx hmax (by simp) hdph hdcmd
    hsource (by simp [Nat.add_assoc]) hsched₃

/-! ### A wire token and its transfers -/

/-- Byte turns of ENC with no command waiting are as many transfers: a failing write leaves ENC idle, and a
silent sink leaves it waiting, for the turns that are left. -/
theorem steps_enc_eq_writeBytes {ph : EncPhase} {p : Packet} (n k : Nat) {s : State} {r : Feed Turn}
    (hu : s.enc = .writing ph p k) (hn : k + n ≤ (wire s.params ph p).length)
    (hcmd : s.encCh.cmd = none) (hsched : s.sched.yields (List.replicate n .enc) r) :
    steps n s = writeBytes n (s.setSched r) := by
  induction n generalizing s k with
  | zero =>
    obtain rfl : s.sched = r := hsched
    rfl
  | succ n ih =>
    have hb : (wire s.params ph p)[k]? = some (wire s.params ph p)[k] :=
      List.getElem?_eq_getElem (by omega)
    have hoffer (x : Feed Turn) : Offering (s.setSched x) p k (wire s.params ph p)[k] :=
      .of_writing_at (ph := ph) hu hb
    have hbusy : s.enc.phase ≠ .idle := (hoffer r).phase_ne_idle
    obtain ⟨hturn, hrest⟩ := id hsched
    have hstep : step s = writeBytes 1 (s.setSched s.sched.pop) :=
      (step_turn hturn).trans (turn_enc_busy hbusy)
    cases hsnk : s.encCh.snk.next with
    | none =>
      rw [writeBytes_silent (s := s.setSched r) (n + 1) hsnk]
      exact steps_wait (fun _ => turn_enc_waits (fetchEnc_no_answer hbusy hsnk)) hsched
    | some a =>
      cases a with
      | err e landed =>
        rw [writeBytes_err (s := s.setSched r) n hsnk, sinkErr_offering (hoffer r) hsnk]
        rw [writeBytes_err (s := s.setSched s.sched.pop) 0 hsnk,
          sinkErr_offering (hoffer s.sched.pop) hsnk] at hstep
        rw [steps_succ n hstep]
        refine (steps_wait (k := .enc) (fun _ => ?_) hrest).trans rfl
        exact turn_enc_waits (fetchEnc_no_command rfl hcmd)
      | ack =>
        rw [writeBytes_one_ack (s := s.setSched s.sched.pop) hsnk] at hstep
        by_cases hmore : k + 1 < (wire s.params ph p).length
        · have hmore' (x : Feed Turn) :
              k + 1 < (wire (s.setSched x).params (s.setSched x).enc.phase p).length := by
            rw [State.setSched_enc, hu]; exact hmore
          rw [sinkAck_of_more (hoffer s.sched.pop) (hmore' _)] at hstep
          rw [writeBytes_ack (s := s.setSched r) n hsnk (sinkAck_of_more (hoffer r) (hmore' r)),
            steps_succ n hstep]
          have hu' : (offerNext k (wire s.params ph p)[k] (s.setSched s.sched.pop)).enc =
              .writing ph p (k + 1) := by simp [offerNext, hu, Enc.writing]
          exact ih (k + 1) hu' (by simpa [offerNext] using by omega) hcmd hrest
        · obtain rfl : n = 0 := by omega
          obtain rfl : s.sched.pop = r := hrest
          rw [writeBytes_one_ack (s := s.setSched s.sched.pop) hsnk, ← hstep]
          rw [sinkAck_offering (hoffer s.sched.pop)] at hstep
          rw [steps_succ 0 hstep, hstep]
          rfl

/-- Settles O46: the row writes the token's bytes, which end within the frame. -/
theorem tokenRowRefinesItsTransfers : Obligations.TokenRowRefinesItsTransfers := by
  intro s i r _ hcmd hdue hsched
  obtain ⟨p, k, hu, htok⟩ := tokenDue_some hdue
  rw [steps_enc_eq_writeBytes (ph := .emit) _ k hu (tokenAt_le_length htok) hcmd hsched]
  exact exec_token_due (s := s.setSched r) hdue

end Sys2Proof.Machine
end

section
/-! Selection at work (R88, R100, R140): a step runs the decoded row, a placed table word is the next row run,
and a row run elsewhere is refused by name. -/

namespace Sys2Proof.Machine

section
variable {s : State} {i : Instr}

/-! ### The step of a decoded row -/

theorem fetchDec_of_event {e : Event} (hev : decEvent s = some e) (hrow : decodeRow s.dec.ctx e = .row i) :
    fetchDec s = some i := by
  rw [fetchDec, hev, Option.bind_some, hrow]; rfl

theorem fetchEnc_of_event {e : Event} (hev : encEvent s = some e) (hrow : decodeRow s.enc.ctx e = .row i) :
    fetchEnc s = some i := by
  rw [fetchEnc, hev, Option.bind_some, hrow]; rfl

/-- With no event a turn of ENC of either kind waits. -/
theorem turn_isEnc_no_event {e : Turn} (he : e.IsEnc) (hev : encEvent s = none) : turn e s = .next s := by
  by_cases hph : s.enc.phase = .idle
  · rw [turn_isEnc_idle he hph, turn_enc_waits (by rw [fetchEnc, hev]; rfl)]
  · have hsnk : s.encCh.snk.next = none := by simpa [encEvent, hph] using hev
    rw [turn_isEnc_busy he hph, writeBytes_silent _ hsnk]

/-- Settles O4: the turn's event, or none, and the row it decodes to. -/
theorem stepRunsTheDecodedRow : Obligations.StepRunsTheDecodedRow := by
  refine ⟨?_, ?_, ?_, ?_, ?_, ?_⟩
  · intro s e i hturn hev hrow
    exact (step_turn hturn).trans (turn_dec_row (fetchDec_of_event hev hrow))
  · intro s e i hturn hev hrow
    exact (step_turn hturn).trans (turn_enc_row (fetchEnc_of_event hev hrow))
  · intro s i hturn hsnk hdue
    have hfetch : fetchToken (s.setSched s.sched.pop) = some i := fetchToken_due hsnk hdue
    rw [step_turn hturn, turn, hfetch]
    rfl
  · intro s hturn hev
    have hfetch : fetchDec (s.setSched s.sched.pop) = none := congrArg (Option.bind · _) hev
    exact (step_turn hturn).trans (turn_dec_waits hfetch)
  · intro s hturn hev
    rcases hturn with hturn | hturn
    · exact (step_turn hturn).trans (turn_isEnc_no_event (s := s.setSched s.sched.pop) (.inl rfl) hev)
    · exact (step_turn hturn).trans (turn_isEnc_no_event (s := s.setSched s.sched.pop) (.inr rfl) hev)
  · intro s hstop
    exact step_stopped hstop

/-! ### A placed table word -/

/-- A placed byte is the answer DEC takes next, in a fresh scan. -/
theorem step_placeByte (b : Byte) (s : State) :
    step (placeByte b s) = exec (scanRow false b) { placeByte b s with sched := s.sched } := by
  have hturn : (placeByte b s).sched.next = some .dec := rfl
  refine (step_turn hturn).trans (turn_dec_row ?_)
  exact fetchDec_scan (a := .byte b) rfl rfl

/-- A placed token is the row that ENC's token turn runs next. -/
theorem step_placeToken {p : Packet} {k : Nat} (s : State) (htok : tokenAt p k = some i) :
    step (placeToken p k s) = exec i { placeToken p k s with sched := s.sched } := by
  have hturn : (placeToken p k s).sched.next = some .encToken := rfl
  have hfetch : fetchToken ((placeToken p k s).setSched (placeToken p k s).sched.pop) = some i :=
    fetchToken_due nofun ((tokenDue_emit rfl).trans htok)
  rw [step_turn hturn, turn, hfetch]
  rfl

/-- The rows that table words decode to: a byte's row in a fresh scan, and the tokens of two bytes. -/
theorem decodeTableWord_some {nbits w : Nat} (h : decodeTableWord nbits w = some i) :
    i = scanRow false (BitVec.ofNat 8 w) ∨ (∃ id, isOther id = true ∧ i = .encTokenStart id) ∨
      i = .encTokenEsc ∨ i = .encTokenTerm := by
  unfold decodeTableWord tableBytes at h
  split at h
  · exact .inl (Option.some.inj h).symm
  · split at h
    · refine .inr ?_
      rw [decodeBytes] at h
      split at h
      · rename_i hid
        rw [decodeRow, startToken] at h
        split at h
        · exact .inl ⟨_, hid, (Option.some.inj h).symm⟩
        · nomatch h
      · split at h
        · rename_i hdle
          rw [hdle, decodeRow, bodyToken, if_pos rfl] at h
          split at h
          · exact .inr (.inl (Option.some.inj h).symm)
          · split at h
            · exact .inr (.inr (Option.some.inj h).symm)
            · nomatch h
        · nomatch h
    · nomatch h

/-- A word of a byte's row is placed as that byte. -/
theorem placeTableWord_byte {nbits w : Nat} (s : State)
    (h : decodeTableWord nbits w = some (scanRow false (BitVec.ofNat 8 w))) :
    placeTableWord s nbits w = placeByte (BitVec.ofNat 8 w) s := by
  rw [placeTableWord, h]
  rcases classOf_cases (BitVec.ofNat 8 w) with ⟨hb, -⟩ | ⟨hb, -⟩ | ⟨hb, -⟩
  · rw [hb]; rfl
  · rw [hb]; rfl
  · rw [scanRow_other hb]; rfl

/-- Settles O5: a byte's row is that of a fresh scan, and a token's row stands at its place in the packet
chosen for it. -/
theorem placedTableWordRunsNext : Obligations.PlacedTableWordRunsNext := by
  intro s nbits w i h
  rw [State.withFetchWord]
  rcases decodeTableWord_some h with rfl | ⟨id, hid, rfl⟩ | rfl | rfl
  · rw [placeTableWord_byte s h]
    exact step_placeByte _ s
  · rw [placeTableWord, h]
    exact step_placeToken s (tokenAt_zero hid)
  · rw [placeTableWord, h]
    exact step_placeToken s rfl
  · rw [placeTableWord, h]
    exact step_placeToken s rfl

/-! ### A row run where it is selected and elsewhere -/

theorem decCtx_scan {d : Dec} {prev : Bool} : d.ctx = .scan prev ↔ d.phase = .scan ∧ d.prevDLE = prev := by
  cases hph : d.phase <;> simp [Dec.ctx, hph]

theorem decCtx_body {d : Dec} {odd : Bool} : d.ctx = .body odd ↔ d.phase = .body ∧ d.dleOdd = odd := by
  cases hph : d.phase <;> simp [Dec.ctx, hph]

theorem decCtx_scan_any {d : Dec} : (d.ctx = .scan false ∨ d.ctx = .scan true) ↔ d.phase = .scan := by
  cases hprev : d.prevDLE <;> simp [decCtx_scan, hprev]

theorem decCtx_body_any {d : Dec} : (d.ctx = .body false ∨ d.ctx = .body true) ↔ d.phase = .body := by
  cases hodd : d.dleOdd <;> simp [decCtx_body, hodd]

theorem decCtx_scan_or_body {d : Dec} :
    (d.ctx = .scan false ∨ d.ctx = .scan true ∨ d.ctx = .body false ∨ d.ctx = .body true) ↔
      d.phase = .scan ∨ d.phase = .body := by
  rw [decCtx_body_any, ← or_assoc, decCtx_scan_any]

/-- A row on an answer is fetched exactly where its operand and the context are the row's and the source
gives that answer. -/
theorem fetchDec_src_iff {a : SrcAnswer} (hev : eventOf i = .src a) :
    fetchDec s = some i ↔
      (i.wf = true ∧ admits s.dec.ctx i = true) ∧ s.decCh.src.next = some a := by
  constructor
  · intro h
    have hselects {c : Ctx} {a' : SrcAnswer} (hc : s.dec.ctx = c) (hsrc : s.decCh.src.next = some a')
        (hsel : Selects c (.src a') i) :
        (i.wf = true ∧ admits s.dec.ctx i = true) ∧ s.decCh.src.next = some a := by
      obtain rfl : a' = a := Event.src.inj (hsel.event.symm.trans hev)
      exact ⟨⟨hsel.wf, hc ▸ hsel.inContext⟩, hsrc⟩
    by_cases hidle : s.dec.phase = .idle
    · cases hcmd : s.decCh.cmd with
      | true => rw [fetchDec_idle hidle hcmd] at h; cases h; nomatch hev
      | false => rw [fetchDec_no_command hidle hcmd] at h; nomatch h
    · cases hsrc : s.decCh.src.next with
      | none => rw [fetchDec_no_answer hidle hsrc] at h; nomatch h
      | some a' =>
        rw [← hsrc]
        cases hph : s.dec.phase with
        | idle => exact absurd hph hidle
        | scan =>
          rw [fetchDec_scan hph hsrc] at h
          cases h
          exact hselects (decCtx_scan.2 ⟨hph, rfl⟩) hsrc (selects_scan _ _)
        | body =>
          rw [fetchDec_body hph hsrc] at h
          cases h
          exact hselects (decCtx_body.2 ⟨hph, rfl⟩) hsrc (selects_body _ _)
  · rintro ⟨⟨hwf, hadm⟩, hsrc⟩
    have hrow := decodeRow_eventOf hwf hadm
    have hbusy : s.dec.phase ≠ .idle := by
      intro hidle
      rw [hev, Dec.ctx, hidle] at hrow
      nomatch hrow
    rw [hev] at hrow
    exact fetchDec_of_event (by simp [decEvent, hbusy, hsrc]) hrow

/-- A row on an answer is guarded by what selects it, and behind the guard it is not refused. -/
theorem exec_src_guard {a : SrcAnswer} (hev : eventOf i = .src a) (s : State) :
    ∃ guard o, exec i s = onRow guard o ∧ (∀ r, o ≠ .refused r) ∧
      (guard = true ↔ (i.wf = true ∧ admits s.dec.ctx i = true) ∧ s.decCh.src.next = some a) := by
  cases i with
  | scanDle =>
    cases hev
    exact ⟨_, _, rfl, nofun, by simp [answered, Instr.wf, admits, decCtx_scan_any]⟩
  | scanEtx =>
    cases hev
    exact ⟨_, _, rfl, nofun, by simp [answered, Instr.wf, admits, decCtx_scan_any]⟩
  | scanSkip b =>
    cases hev
    exact ⟨_, _, rfl, nofun, by simp [answered, Instr.wf, admits, decCtx_scan]; tauto⟩
  | scanStart b =>
    cases hev
    exact ⟨_, _, rfl, nofun, by simp [answered, Instr.wf, admits, decCtx_scan]; tauto⟩
  | bodyDle =>
    cases hev
    exact ⟨_, _, rfl, nofun, by simp [answered, Instr.wf, admits, decCtx_body]; tauto⟩
  | bodyEsc =>
    cases hev
    exact ⟨_, _, rfl, nofun, by simp [answered, Instr.wf, admits, decCtx_body]; tauto⟩
  | bodyTerm =>
    cases hev
    refine ⟨_, _, rfl, ?_, by simp [answered, Instr.wf, admits, decCtx_body]; tauto⟩
    cases s.dec.id <;> exact nofun
  | bodyEtxlit =>
    cases hev
    exact ⟨_, _, rfl, nofun, by simp [answered, Instr.wf, admits, decCtx_body]; tauto⟩
  | bodyDrop b =>
    cases hev
    exact ⟨_, _, rfl, nofun, by simp [answered, Instr.wf, admits, decCtx_body]; tauto⟩
  | bodyLit b =>
    cases hev
    exact ⟨_, _, rfl, nofun, by simp [answered, Instr.wf, admits, decCtx_body]; tauto⟩
  | srcEos =>
    cases hev
    exact ⟨_, _, rfl, nofun, by simp [answered, Instr.wf, admits, decCtx_scan_or_body, or_and_right]⟩
  | srcErr e =>
    cases hev
    exact ⟨_, _, rfl, nofun, by simp [answered, Instr.wf, admits, decCtx_scan_or_body, or_and_right]⟩
  | _ => nomatch hev

/-- A row on an answer runs where it is fetched and is refused elsewhere. -/
theorem exec_src_row {a : SrcAnswer} (hev : eventOf i = .src a) :
    (fetchDec s ≠ some i → exec i s = .refused .rowNotSelected) ∧
      (fetchDec s = some i → ∀ r, exec i s ≠ .refused r) := by
  obtain ⟨guard, o, hexec, ho, hguard⟩ := exec_src_guard hev s
  rw [← fetchDec_src_iff hev] at hguard
  rw [hexec]
  cases guard with
  | true => exact ⟨fun h => absurd (hguard.1 rfl) h, fun _ => ho⟩
  | false => exact ⟨fun _ => rfl, fun h => nomatch hguard.2 h⟩

/-- A row on a sink answer is refused where it is not fetched. -/
theorem exec_snk_refused {a : SnkAnswer} (hev : eventOf i = .snk a) (h : fetchEnc s ≠ some i) :
    exec i s = .refused .rowNotSelected := by
  have hfetch {r : SnkReply} (hph : s.enc.phase ≠ .idle) (hsnk : s.encCh.snk.next = some r) :
      snkRow r.answer ≠ i := fun heq => h (by rw [fetchEnc_answer hph hsnk, heq])
  cases i with
  | snkAck =>
    have hguard : (decide (s.enc.phase ≠ .idle) && decide (s.encCh.snk.next = some .ack)) = false := by
      by_contra hsel
      rw [Bool.not_eq_false, Bool.and_eq_true, decide_eq_true_eq, decide_eq_true_eq] at hsel
      exact hfetch hsel.1 hsel.2 rfl
    rw [exec, execSnkAck, hguard]; rfl
  | snkErr e =>
    rw [exec, execSnkErr]
    split
    · rename_i e' landed hsnk
      have hguard : (decide (s.enc.phase ≠ .idle) && decide (e' = e)) = false := by
        by_contra hsel
        rw [Bool.not_eq_false, Bool.and_eq_true, decide_eq_true_eq, decide_eq_true_eq] at hsel
        exact hfetch hsel.1 hsnk (congrArg Instr.snkErr hsel.2)
      rw [hguard]; rfl
    · rfl
  | _ => nomatch hev

/-- The row of the token ENC stands at answers next: its bytes are all on offer. -/
theorem exec_token_next (hdue : tokenDue s = some i) : ∃ t, exec i s = .next t := by
  obtain ⟨p, k, hu, htok⟩ := tokenDue_some hdue
  obtain ⟨u', ch', hrun⟩ := onEnc_writeBytes (c := s.params) (ph := .emit) (encode i).length k s.encCh
    (tokenAt_le_length htok)
  rw [exec_token_due hdue]
  exact ⟨_, hrun s rfl hu rfl⟩

/-- A command row runs for the operands it has a meaning for. -/
theorem exec_command_row (h : i = .decode ∨ ∃ p, i = .encode p ∨ i = .encodeReject p) :
    (i.wf = false → exec i s = .refused .rowNotSelected) ∧ (i.wf = true → ∃ t, exec i s = .next t) := by
  rcases h with rfl | ⟨p, rfl | rfl⟩
  · refine ⟨nofun, fun _ => ?_⟩
    by_cases hph : s.dec.phase = .idle
    · exact ⟨_, if_pos hph⟩
    · exact ⟨_, if_neg hph⟩
  · exact ⟨fun hwf => congrArg (onRow · _) hwf, fun hwf => ⟨_, congrArg (onRow · _) hwf⟩⟩
  · exact ⟨fun hwf => congrArg (onRow · _) hwf, fun hwf => ⟨_, congrArg (onRow · _) hwf⟩⟩

end

/-- Settles O6: each kind of row, where its unit selects it and elsewhere. -/
theorem answerRowRunsOnlyWhereSelected : Obligations.AnswerRowRunsOnlyWhereSelected := by
  refine ⟨?_, ?_, ?_, ?_⟩
  · rintro i s ⟨a, hev⟩
    exact exec_src_row hev
  · rintro i s ⟨a, hev⟩
    refine ⟨exec_snk_refused hev, fun hfetch hinv => ?_⟩
    obtain ⟨-, henc, -⟩ := inv_iff.1 hinv
    obtain ⟨u', ch', hturn⟩ := onEnc_of_encOk (e := .enc) (.inl rfl) henc s.encCh
    exact ⟨_, (turn_enc_row hfetch).symm.trans (hturn s rfl rfl rfl)⟩
  · rintro i s ⟨bs, hev⟩
    refine ⟨fun hdue => ?_, fun hdue _ => exec_token_next hdue⟩
    rw [exec_wire_row hev, writeToken, decide_eq_false hdue]; rfl
  · intro i s h
    exact exec_command_row h

/-! ### Rows in states no run selects them in -/

/-- Settles O21: the guard holds, and the register behind it holds no value. -/
theorem readingARegisterWithoutValueFaults : Obligations.ReadingARegisterWithoutValueFaults := by
  refine ⟨?_, ?_, ?_⟩
  · intro s hph hodd hid hsrc
    have hans : answered .body (.byte ETX) s = true := answered_iff.2 ⟨hph, hsrc⟩
    simp [exec, execBodyTerm, hans, hodd, hid]
  · intro s hph hpkt
    refine ⟨fun hsnk => ?_, fun e l hsnk => ?_⟩
    · rw [exec_snkAck_busy hph hsnk, sinkAck, withOffer, hpkt]
    · rw [exec_snkErr_busy hph hsnk, sinkErr, withOffer, hpkt]
  · intro s p hph hpkt hk
    refine ⟨fun hsnk => ?_, fun e l hsnk => ?_⟩
    · rw [exec_snkAck_busy hph hsnk, sinkAck, withOffer, hpkt, hk]
    · rw [exec_snkErr_busy hph hsnk, sinkErr, withOffer, hpkt, hk]

/-- Settles O24: outside `IDLE` a command row only holds its command on the channel. -/
theorem busyUnitLeavesTheCommandWaiting : Obligations.BusyUnitLeavesTheCommandWaiting := by
  refine ⟨fun s hph => if_neg hph, ?_⟩
  rintro s p i hph (⟨rfl, hdle, hetx⟩ | ⟨rfl, hid⟩)
  · have hp : p.encodable = true := encodable_iff.2 ⟨hdle, hetx⟩
    rw [exec, execEncode, hp, if_neg hph]; rfl
  · have hp : p.encodable = false := not_encodable_iff.2 hid
    rw [exec, execEncodeReject, hp, if_neg hph]; rfl

end Sys2Proof.Machine
end

section
/-! Sequences, status codes, reset and blocks of codecs (R51, R171, R180, R200). -/

namespace Sys2Proof.Machine

/-! ### Sequences -/

/-- A repeated list gives its first items in order, and they come again behind the others. -/
theorem Feed.yields_rotate {α : Type} [Inhabited α] (a b : α) (l m : List α) :
    Feed.yields { listed := [], after := .repeats a (l ++ b :: m) } (a :: l)
      { listed := [], after := .repeats b (m ++ a :: l) } := by
  induction l generalizing a m with
  | nil => exact ⟨rfl, rfl⟩
  | cons x l ih => exact ⟨rfl, by simpa using ih x (m ++ [a])⟩

/-- A repeated list is given whole, and the sequence is then as before. -/
theorem Feed.yields_repeats {α : Type} [Inhabited α] (a : α) (l : List α) :
    Feed.yields { listed := [], after := .repeats a l } (a :: l)
      { listed := [], after := .repeats a l } := by
  cases l with
  | nil => exact ⟨rfl, rfl⟩
  | cons x l => exact ⟨rfl, by simpa using Feed.yields_rotate x a l []⟩

/-- Settles O20: each form of sequence in turn. -/
theorem sourceAnswersFrontToBack : Obligations.SourceAnswersFrontToBack := by
  refine ⟨?_, ?_, ?_, ?_, ?_⟩
  · rintro a l x q rfl; exact ⟨rfl, rfl⟩
  · rintro q rfl; exact ⟨rfl, rfl⟩
  · rintro a l q rfl; exact Feed.yields_repeats a l
  · rintro n k q rfl; exact ⟨rfl, rfl⟩
  · intro l n
    refine ⟨{ listed := [], after := .repeats .eos [] }, ?_, Feed.yields_replicate _ n⟩
    simpa [Source.ofBytes] using Feed.yields_listed (l.map SrcAnswer.byte) [] (.repeats .eos [])

/-! ### Codes and reset -/

/-- Settles O33: `code` at each result. -/
theorem statusCodesOfTheResults : Obligations.StatusCodesOfTheResults :=
  ⟨fun _ => rfl, rfl, fun _ => rfl, rfl, rfl, fun _ => rfl, fun _ => rfl⟩

/-- Settles O49: the registers of reset, and no command on either channel. -/
theorem resetLeavesBothUnitsIdle : Obligations.ResetLeavesBothUnitsIdle :=
  ⟨rfl, rfl, rfl, rfl, fetchDec_no_command rfl rfl, fetchEnc_no_command rfl rfl⟩

/-! ### Blocks of codecs -/

/-- A step of a codec in a block: none at an index with no codec, else the codec's own step. -/
theorem stepAt_next {n : Nat} {us ts : List State} :
    stepAt n us = .next ts ↔
      (us[n]? = none ∧ ts = us) ∨ ∃ u t, us[n]? = some u ∧ step u = .next t ∧ ts = us.set n t := by
  unfold stepAt
  cases hn : us[n]? with
  | none => simp [eq_comm]
  | some u => cases hu : step u <;> simp [hu, eq_comm]

theorem stepAt_others {n : Nat} {us ts : List State} (h : stepAt n us = .next ts) :
    ts.length = us.length ∧ ∀ m, m ≠ n → ts[m]? = us[m]? := by
  rcases stepAt_next.1 h with ⟨-, rfl⟩ | ⟨u, t, -, -, rfl⟩
  · exact ⟨rfl, fun _ _ => rfl⟩
  · exact ⟨List.length_set, fun m hm => List.getElem?_set_ne hm.symm⟩

/-- Settles O60: a codec's step reads and writes its own place in the block. -/
theorem codecsInABlockAreIndependent : Obligations.CodecsInABlockAreIndependent := by
  refine ⟨fun us ts n h => stepAt_others h, ?_⟩
  intro us ts vs m n hmn hm hn
  have hplace : ts[n]? = us[n]? := (stepAt_others hm).2 n hmn.symm
  rcases stepAt_next.1 hn with ⟨hnone, rfl⟩ | ⟨u, t, hu, hstep, rfl⟩
  · exact ⟨us, stepAt_next.2 (.inl ⟨hplace ▸ hnone, rfl⟩), hm⟩
  · have hws : stepAt n us = .next (us.set n t) := stepAt_next.2 (.inr ⟨u, t, hplace ▸ hu, hstep, rfl⟩)
    have hplace' : (us.set n t)[m]? = us[m]? := (stepAt_others hws).2 m hmn
    refine ⟨us.set n t, hws, stepAt_next.2 ?_⟩
    rcases stepAt_next.1 hm with ⟨hnone, rfl⟩ | ⟨u', t', hu', hstep', rfl⟩
    · exact .inl ⟨hplace'.trans hnone, rfl⟩
    · exact .inr ⟨u', t', hplace'.trans hu', hstep', List.set_comm t' t hmn⟩

end Sys2Proof.Machine
end
